-- ==== Sys2Proof/Word.lean ====
section
/-! DEFINITION. The words of the AVR85 core (00_scope.md R5, R6: bit 0 is the least significant bit; all values are
unsigned bit vectors of a stated width; sums keep the low bits). -/

namespace Sys2Proof

/-- One cell of the data store or of the EEPROM store, a general register, the status register: 8 bits (R10, R17). -/
abbrev Byte := BitVec 8

/-- One word of the program store, the instruction register, a register pair: 16 bits (R13, R16, R22). -/
abbrev Word := BitVec 16

/-- The program counter: a word address of PC_WIDTH = 16 bits (R14; log entry 7). -/
abbrev Address := BitVec 16

/-- The index of a general register, 0 to 31: a 5-bit unsigned field (R53). -/
abbrev RegIdx := BitVec 5

end Sys2Proof
end

