-- ==== Sys2Proof/Config.lean ====
section
/-! DEFINITION. What is fixed when the core is constructed (00_scope.md R4): the capacities of the three stores, the
address at which the status register shows, and the opcode values. The default values stand in Decode.lean
(`Config.default`), beside the decode table they belong to. The spec leaves no value of an instruction open, so there is
no free value here. -/

namespace Sys2Proof

/-- The implementation parameters of R4 that are not fixed by a type. REG_COUNT (32), IO_COUNT and SRAM_COUNT are no
parameters of any rule. -/
structure Config where
  /-- PROG_CAPACITY: the number of 16-bit words in the program store. -/
  progCapacity : Nat
  /-- DATA_CAPACITY: the number of 8-bit cells in the data store. -/
  dataCapacity : Nat
  /-- EEPROM_CAPACITY: the number of 8-bit cells in the EEPROM store. -/
  eepromCapacity : Nat
  /-- SREG_ADDR: the data-store address at which SREG is visible (R20). -/
  sregAddr : Nat
  /-- OPC_ADD. -/
  opcAdd : BitVec 6
  /-- OPC_ADC. -/
  opcAdc : BitVec 6
  /-- OPC_AND. -/
  opcAnd : BitVec 6
  /-- OPC_ADIW. -/
  opcAdiw : BitVec 8
  deriving DecidableEq, Repr

/-- The constraints R4 puts on the parameters: the value PROG_CAPACITY fits the program counter, SREG lies in the I/O
region, and the three 6-bit opcodes are pairwise distinct. -/
abbrev Config.Wf (c : Config) : Prop :=
  c.progCapacity ≤ 65535 ∧ (32 ≤ c.sregAddr ∧ c.sregAddr ≤ 95) ∧
    (c.opcAdd ≠ c.opcAdc ∧ c.opcAdd ≠ c.opcAnd ∧ c.opcAdc ≠ c.opcAnd)

end Sys2Proof
end

