-- ==== Sys2Proof/Syntax.lean ====
section
/-! DEFINITION. The instructions of the catalogue (spec/opcode_table.json; 30_encoding.md R57): one constructor per row,
in the table's order. LSL, ROL and TST are spellings of ADD, ADC and AND (R62) and have none. -/

namespace Sys2Proof

/-- What the decoder returns: the opcode identifier with its operand fields (R55). -/
inductive Instr where
  /-- ADIW Rp, K (42_adiw.md R90): `p` is the low register of the pair, `k` the 6-bit unsigned immediate (R54). -/
  | adiw (p : RegIdx) (k : BitVec 6)
  /-- ADD Rd, Rr (41_add.md R86): any `d` and `r`, equal ones too (R53). -/
  | add (d r : RegIdx)
  /-- ADC Rd, Rr (41_add.md R87). -/
  | adc (d r : RegIdx)
  /-- AND Rd, Rr (43_and.md R95). -/
  | and (d r : RegIdx)
  deriving DecidableEq, Repr

end Sys2Proof
end

