-- ==== Sys2Proof/WellFormed.lean ====
section
/-! DEFINITION. Which terms of Instr are instructions of the hardware. The widths of the fields already bound `d`, `r`
and `k`; the one check left is the pair of ADIW (R54: "registers 24,26,28,30 as low halves"). -/

namespace Sys2Proof

/-- `p` is the low register of one of the four pairs an instruction can name (R13, R54). -/
abbrev IsPairLow (p : RegIdx) : Prop := p = 24 ∨ p = 26 ∨ p = 28 ∨ p = 30

/-- An instruction an encoding exists for. Every d and r of format RR is legal (R53). -/
abbrev Instr.Wf (i : Instr) : Prop :=
  match i with
  | .adiw p _ => IsPairLow p
  | .add _ _ => True
  | .adc _ _ => True
  | .and _ _ => True

end Sys2Proof
end

