-- ==== Sys2Proof/Decode.lean ====
section
/-! DEFINITION. The decoder and the encoder (30_encoding.md). The decoder is total on all 65536 words and a pure function
of the word and of the opcode parameters (R55); every word no entry matches is rejected by name. -/

namespace Sys2Proof

/-- The values the parameters of R4 take when nothing else is said. The opcodes and SREG_ADDR are the spec's defaults
D2 and D5, which no source confirms (log entries 4 and 6, UNVERIFIED). -/
def Config.default : Config where
  progCapacity := 4096
  dataCapacity := 351
  eepromCapacity := 512
  sregAddr := 0x5F
  opcAdd := 0b000011#6
  opcAdc := 0b000111#6
  opcAnd := 0b001000#6
  opcAdiw := 0b10010110#8

/-- Why the decoder rejects a word: "no decode-table entry matched the fetched word" (R58, R100). -/
inductive DecodeError where
  | unknownOpcode
  deriving DecidableEq, Repr

/-- The opcode identifiers of the catalogue (R55, R57). -/
inductive OpcodeId where
  | adiw | add | adc | and
  deriving DecidableEq, Repr

/-- One (bitmask, required-bits, operand-extraction-rule) entry of R56; the identifier selects the extraction rule. -/
structure DecodeEntry where
  mask : Word
  required : Word
  id : OpcodeId
  deriving DecidableEq, Repr

/-- R53: `d = bits[8:4]`. -/
def fieldD (w : Word) : RegIdx := w.extractLsb' 4 5

/-- R53: `r = {bits[9], bits[3:0]}`. -/
def fieldR (w : Word) : RegIdx := w.extractLsb' 9 1 ++ w.extractLsb' 0 4

/-- R54: the pair's low register is `24 + 2 * bits[5:4]`. -/
def fieldP (w : Word) : RegIdx := 24#5 + 2#5 * (w.extractLsb' 4 2).setWidth 5

/-- R54: `K = {bits[7:6], bits[3:0]}`. -/
def fieldK (w : Word) : BitVec 6 := w.extractLsb' 6 2 ++ w.extractLsb' 0 4

/-- The operand rules of R57: R54 for ADIW, R53 for the others. -/
def operandsOf (id : OpcodeId) (w : Word) : Instr :=
  match id with
  | .adiw => .adiw (fieldP w) (fieldK w)
  | .add => .add (fieldD w) (fieldR w)
  | .adc => .adc (fieldD w) (fieldR w)
  | .and => .and (fieldD w) (fieldR w)

/-- The decode table of R57 in its priority order: the 8-bit opcode first (8 fixed bits), then the three 6-bit opcodes
(6 fixed bits each) in the table's order (R56, D12; log entry 15). `required` is `OPC_x << 8` or `OPC_x << 10`. -/
def decodeTable (c : Config) : List DecodeEntry :=
  [⟨0xFF00#16, c.opcAdiw ++ 0#8, .adiw⟩,
   ⟨0xFC00#16, c.opcAdd ++ 0#10, .add⟩,
   ⟨0xFC00#16, c.opcAdc ++ 0#10, .adc⟩,
   ⟨0xFC00#16, c.opcAnd ++ 0#10, .and⟩]

/-- R56: the first entry whose required bits the word has under its mask. -/
def firstMatch (table : List DecodeEntry) (w : Word) : Except DecodeError Instr :=
  match table with
  | [] => .error .unknownOpcode
  | e :: rest => if w &&& e.mask = e.required then .ok (operandsOf e.id w) else firstMatch rest w

/-- R55: `decode(word)`. -/
def decode (c : Config) (w : Word) : Except DecodeError Instr := firstMatch (decodeTable c) w

/-- R63, `enc_RR`: `(opc6 << 10) | ((r >> 4) << 9) | (d << 4) | (r ∧ 0xF)`. -/
def encodeRR (opc : BitVec 6) (d r : RegIdx) : Word :=
  opc ++ r.extractLsb' 4 1 ++ d ++ r.extractLsb' 0 4

/-- R63, `enc_ADIW`: `(OPC_ADIW << 8) | ((K >> 4) << 6) | (((p - 24) / 2) << 4) | (K ∧ 0xF)`. -/
def encodeWI (opc : BitVec 8) (p : RegIdx) (k : BitVec 6) : Word :=
  opc ++ k.extractLsb' 4 2 ++ (p - 24#5).extractLsb' 1 2 ++ k.extractLsb' 0 4

/-- The one word of a well-formed instruction (R50, R63). -/
def encode (c : Config) (i : Instr) : Word :=
  match i with
  | .adiw p k => encodeWI c.opcAdiw p k
  | .add d r => encodeRR c.opcAdd d r
  | .adc d r => encodeRR c.opcAdc d r
  | .and d r => encodeRR c.opcAnd d r

/-- The decoder under the default parameters, on an instruction given by its low `nbits` bits as the opcode table numbers
them (bit 0 is the least significant bit of the one word); the bits above are 0. -/
def decodeTableWord (nbits w : Nat) : Option Instr :=
  match decode Config.default (BitVec.ofNat 16 (w % 2 ^ nbits)) with
  | .ok i => some i
  | .error _ => none

end Sys2Proof
end

