-- ==== Sys2Proof/Machine/State.lean ====
section
/-! DEFINITION. The state of the core as plain data (10_state.md), its two faults, and the state after construction. -/

namespace Sys2Proof.Machine

/-- The cells of a bounded store of `w`-bit words (R30): (address, value) pairs, addresses strictly rising, no value 0.
An unlisted cell reads as 0, the value R30 initialises every cell to. `Memory 8` is a list of `Host.Cell`. The capacity
stands in the configuration (R4). -/
abbrev Memory (w : Nat) := List (Nat × BitVec w)

/-- The two states of the execution state machine (R25). -/
inductive Phase where
  /-- No instruction in flight. -/
  | idle
  /-- Decode or dispatch in progress: only inside a step. -/
  | executing
  deriving DecidableEq, Repr

/-- The whole state of the core, "Nothing else is state" (10_state.md), with the configuration it was constructed with.
The general registers are the cells 0 to 31 of `data` (R10); the pairs are two cells each (R13). -/
structure State where
  /-- The parameters fixed by `new` (R4): immutable, written by nothing (log entry 3). -/
  cfg : Config
  /-- DATA: registers, I/O space and SRAM (R23), less the cell at which SREG shows (R20). -/
  data : Memory 8
  /-- PROG: the instruction words (R22). -/
  prog : Memory 16
  /-- EEPROM: host-only (R24). -/
  eeprom : Memory 8
  /-- SREG: C Z N V S H T I at bits 0 to 7 (R17). -/
  sreg : Byte
  /-- PC: the word address of the next instruction to fetch (R14). -/
  pc : Address
  /-- IR: the most recently fetched word (R16). -/
  ir : Word
  /-- Idle or Executing (R25). -/
  phase : Phase
  deriving DecidableEq, Repr

/-- The two faults of R100, without payload (R103). Both are results of the hardware itself, so neither is a departure
from it: safe. What a failed step leaves in the state is `takeFault` (log entry 1). -/
inductive Fault where
  /-- An address access fell outside a store's capacity. Raised by `fetch` when PC >= PROG_CAPACITY (R71), by the four
  meanings when an operand register index is >= DATA_CAPACITY (R76), and by the host's hooks (R116). Safe. -/
  | outOfBounds
  /-- The fetched word matches no entry of the decode table (R73, R102). Raised by `decodeFetched`. Safe. -/
  | unknownOpcode
  deriving DecidableEq, Repr

/-- What has no meaning in the spec, by name. -/
inductive Refusal where
  /-- An arm of `exec` without a meaning. Raised by no arm of this model. Safe: it stops. -/
  | notModelled (mnemonic : String)
  /-- A transaction requested while a step is in flight: R129 "a model gives such a request no move". Raised by `step`
  and `transact` in the phase Executing, which no reachable state has (log entry 13). Safe: it stops. -/
  | requestInFlight
  /-- A load requested after a step: R127 "this spec gives it no meaning and a model must refuse it". Raised by
  `transact` (log entry 9). Safe: it stops. -/
  | loadAfterStep
  deriving DecidableEq, Repr

/-- `new(capacity parameters)`: every cell of every store zero, PC, IR and SREG zero, phase Idle (R27, R120). The zeros
of PC, IR and SREG are the spec's decision D6, the zero EEPROM its decision D13 (log entries 5 and 11). -/
def State.new (c : Config) : State where
  cfg := c
  data := []
  prog := []
  eeprom := []
  sreg := 0
  pc := 0
  ir := 0
  phase := .idle

/-- The machine right after reset: construction with the default parameters (R4, R27, R120). -/
def State.reset : State := State.new Config.default

end Sys2Proof.Machine
end

