-- ==== Sys2Proof/Machine/Ops.lean ====
section
/-! DEFINITION. The named operations over stores and registers: the bounded store (R30 to R32), the accesses to the three
stores, the fetch (R71, R72), the atomic commit (R77), the advance (R78), the state a failed step leaves (R105), and the
two loads (R124, R126). -/

namespace Sys2Proof.Machine

/-- What a step, and each meaning, answers. -/
abbrev Outcome := Host.Outcome State Fault Refusal

/-! ### The bounded store -/

/-- `cell(space, address)`: what the backing storage holds; an unlisted cell is 0 (R30 "default-initialized to zero"). -/
def cell {w : Nat} (m : Memory w) (a : Nat) : BitVec w :=
  match m with
  | [] => 0#w
  | c :: rest => if c.1 = a then c.2 else cell rest a

/-- One cell put in front of a store's higher cells; the value an unlisted cell has is not listed. -/
def consCell {w : Nat} (a : Nat) (v : BitVec w) (m : Memory w) : Memory w :=
  if v = 0#w then m else (a, v) :: m

/-- `cell(space, address) <- v`: that one cell replaced, in the canonical form. -/
def setCell {w : Nat} (m : Memory w) (a : Nat) (v : BitVec w) : Memory w :=
  match m with
  | [] => consCell a v []
  | c :: rest =>
    if a < c.1 then consCell a v (c :: rest)
    else if a = c.1 then consCell a v rest
    else c :: setCell rest a v

/-- The canonical form: addresses strictly rising, no entry equal to what an unlisted cell reads as. -/
abbrev Memory.Wf {w : Nat} (m : Memory w) : Prop :=
  m.Pairwise (fun c e => c.1 < e.1) ∧ ∀ c ∈ m, c.2 ≠ 0#w

/-- `Memory.Wf` as a Bool. -/
def Memory.wf {w : Nat} (m : Memory w) : Bool := decide (Memory.Wf m)

/-- Every listed cell lies inside the store's capacity (R30: "no access ever occurs outside"). -/
abbrev Memory.Within {w : Nat} (capacity : Nat) (m : Memory w) : Prop := ∀ c ∈ m, c.1 < capacity

/-- R31, `MemRead(space, address, 1)` on a store of the given capacity. -/
def boundedRead {w : Nat} (capacity : Nat) (m : Memory w) (a : Nat) : Except Fault (BitVec w) :=
  if a < capacity then .ok (cell m a) else .error .outOfBounds

/-- R32, `MemWrite(space, address, 1, v)` on a store of the given capacity. -/
def boundedWrite {w : Nat} (capacity : Nat) (m : Memory w) (a : Nat) (v : BitVec w) : Except Fault (Memory w) :=
  if a < capacity then .ok (setCell m a v) else .error .outOfBounds

/-! ### The three stores -/

/-- `ProgRead(a)` (R5, R31). -/
def progRead (s : State) (a : Nat) : Except Fault Word := boundedRead s.cfg.progCapacity s.prog a

/-- `MemRead(EEPROM, a, 1)` (R5, R31). -/
def eepromRead (s : State) (a : Nat) : Except Fault Byte := boundedRead s.cfg.eepromCapacity s.eeprom a

/-- `DataRead(a)` (R5, R31): at SREG_ADDR, inside the capacity, the value is SREG (R20; log entry 6). -/
def dataRead (s : State) (a : Nat) : Except Fault Byte :=
  if a = s.cfg.sregAddr then (if a < s.cfg.dataCapacity then .ok s.sreg else .error .outOfBounds)
  else boundedRead s.cfg.dataCapacity s.data a

/-- One data cell replaced, the address already validated; at SREG_ADDR it is SREG that is set (R20). -/
def putData (s : State) (a : Nat) (v : Byte) : State :=
  if a = s.cfg.sregAddr then { s with sreg := v } else { s with data := setCell s.data a v }

/-- `DataWrite(a, v)` (R5, R32). -/
def dataWrite (s : State) (a : Nat) (v : Byte) : Except Fault State :=
  if a < s.cfg.dataCapacity then .ok (putData s a v) else .error .outOfBounds

/-! ### The common part of a step -/

/-- Fetch: `ProgRead(PC)`, and the fetched word into the IR (R71, R72); the phase is Executing from here to the end of the
step (R25). A failed fetch leaves no state. -/
def fetch (s : State) : Except Fault State :=
  match progRead s s.pc.toNat with
  | .ok w => .ok { s with ir := w, phase := .executing }
  | .error f => .error f

/-- Decode: the word in the IR is given to the decoder (R73). -/
def decodeFetched (s : State) : Except Fault Instr :=
  match decode s.cfg s.ir with
  | .ok i => .ok i
  | .error .unknownOpcode => .error .unknownOpcode

/-- Every destination address is a valid data-store address (R77, second point). -/
def destinationsValid (s : State) (writes : List (Nat × Byte)) : Bool :=
  writes.all fun c => decide (c.1 < s.cfg.dataCapacity)

/-- R77: all destinations are validated, then the result bytes and the SREG byte are written together; if one destination
is invalid nothing is written. -/
def commit (s : State) (writes : List (Nat × Byte)) (sreg : Byte) : Except Fault State :=
  if destinationsValid s writes then
    .ok { writes.foldl (fun t c => putData t c.1 c.2) s with sreg := sreg }
  else .error .outOfBounds

/-- R78: after a commit the PC advances by 1 word; after a failure nothing is left to advance. -/
def advance (r : Except Fault State) : Outcome :=
  match r with
  | .ok t => .next { t with pc := t.pc + 1#16 }
  | .error f => .fault f

/-- R79: a completed step returns to Idle. -/
def returnToIdle (o : Outcome) : Outcome :=
  match o with
  | .next t => .next { t with phase := .idle }
  | .fault f => .fault f
  | .refused r => .refused r

/-- The state after a step that ended in a fault (R105): PC, SREG and the three stores as before; the IR holds the
fetched word if a word was fetched (R72); the phase is Idle (R25, R79). There is no handler and nothing is saved
(R103, R104). -/
def takeFault (s : State) : State :=
  match fetch s with
  | .ok t => { t with phase := .idle }
  | .error _ => { s with phase := .idle }

/-! ### The loads -/

/-- The image's bytes as little-endian 16-bit words from word address `i` on (R35, R124). A missing high byte is 0x00
(R125, the spec's decision D8; log entry 8). -/
def imageCells (i : Nat) (bytes : List Byte) : Memory 16 :=
  match bytes with
  | [] => []
  | [lo] => consCell i (0#8 ++ lo) []
  | lo :: hi :: rest => consCell i (hi ++ lo) (imageCells (i + 1) rest)

/-- A buffer's bytes as cells from address `i` on (R126). -/
def byteCells (i : Nat) (bytes : List Byte) : Memory 8 :=
  match bytes with
  | [] => []
  | b :: rest => consCell i b (byteCells (i + 1) rest)

/-- `load_program(bytes)` (R124): `none` is LoadError, the store unchanged (R125); else every word of PROG is replaced,
the words beyond the image by 0x0000. Nothing but PROG changes. -/
def loadProgram (s : State) (bytes : List Byte) : Option State :=
  if 2 * s.cfg.progCapacity < bytes.length then none
  else some { s with prog := imageCells 0 bytes }

/-- `load_eeprom(bytes)` (R126; log entry 10): `none` is LoadError; else every cell of EEPROM is replaced, the cells beyond the
buffer by 0x00. Nothing but EEPROM changes. -/
def loadEeprom (s : State) (bytes : List Byte) : Option State :=
  if s.cfg.eepromCapacity < bytes.length then none
  else some { s with eeprom := byteCells 0 bytes }

end Sys2Proof.Machine
end

