-- ==== Sys2Proof/Machine/Flags.lean ====
section
/-! DEFINITION. The status register's bits (R17) and every flag computation of the spec: the pure functions
`(operands, current flags) -> (result, new flags)` of the ALU (R74). -/

namespace Sys2Proof.Machine

/-- The eight named bits of SREG (R17). -/
inductive Flag where
  | c | z | n | v | s | h | t | i
  deriving DecidableEq, Repr

/-- The bit of SREG a flag is (R17): "Carry=bit0, Zero=bit1, Negative=bit2, Overflow=bit3, Sign=bit4, HalfCarry=bit5,
Transfer=bit6, InterruptEnable=bit7". -/
def flagBit (f : Flag) : Nat :=
  match f with
  | .c => 0
  | .z => 1
  | .n => 2
  | .v => 3
  | .s => 4
  | .h => 5
  | .t => 6
  | .i => 7

/-- The named bit of a status byte. -/
def flag (f : Flag) (sreg : Byte) : Bool := sreg.getLsbD (flagBit f)

/-- The status byte `{ I, T, H, S, V, N, Z, C }` (R85, with R17's places). -/
def sregOf (i t h s v n z c : Bool) : Byte :=
  BitVec.ofBool i ++ BitVec.ofBool t ++ BitVec.ofBool h ++ BitVec.ofBool s ++
    BitVec.ofBool v ++ BitVec.ofBool n ++ BitVec.ofBool z ++ BitVec.ofBool c

/-- R85: the carry out of bit `k` of an addition, `(a[k] ∧ b[k]) ∨ (¬r[k] ∧ (b[k] ∨ a[k]))`: Carry at bit 7, HalfCarry at
bit 3 ("with the same structural formula as Carry"; 90_conflicts.md C6). -/
def carryOut (k : Nat) (a b r : Byte) : Bool :=
  (a.getLsbD k && b.getLsbD k) || (!r.getLsbD k && (b.getLsbD k || a.getLsbD k))

/-- R85: `Add8(Vd, Vr, cin, sreg)`, the result and the new status byte; I and T preserved. -/
def add8 (vd vr : Byte) (cin : Bool) (sreg : Byte) : Byte × Byte :=
  let r := vd + vr + (BitVec.ofBool cin).setWidth 8
  let n := r.getLsbD 7
  let v := (vd.getLsbD 7 && vr.getLsbD 7 && !r.getLsbD 7) || (!vd.getLsbD 7 && !vr.getLsbD 7 && r.getLsbD 7)
  (r, sregOf (flag .i sreg) (flag .t sreg) (carryOut 3 vd vr r) (n ^^ v) v n (r == 0#8) (carryOut 7 vd vr r))

/-- R90: `AddW(Vd, K, sreg)`, the 16-bit result and the new status byte; I, T and H preserved. -/
def addW (vd : Word) (k : BitVec 6) (sreg : Byte) : Word × Byte :=
  let r := vd + k.setWidth 16
  let n := r.getLsbD 15
  let v := !vd.getLsbD 15 && r.getLsbD 15
  (r, sregOf (flag .i sreg) (flag .t sreg) (flag .h sreg) (n ^^ v) v n (r == 0#16) (!r.getLsbD 15 && vd.getLsbD 15))

/-- R95: `And8(Vd, Vr, sreg)`, the result and the new status byte; I, T, H and C preserved, V forced to 0. -/
def and8 (vd vr : Byte) (sreg : Byte) : Byte × Byte :=
  let r := vd &&& vr
  let n := r.getLsbD 7
  let v := false
  (r, sregOf (flag .i sreg) (flag .t sreg) (flag .h sreg) (n ^^ v) v n (r == 0#8) (flag .c sreg))

end Sys2Proof.Machine
end

