-- ==== Sys2Proof/Machine/Operands.lean ====
section
/-! DEFINITION. The operand forms: a register (format RR, R53) and a register pair (format WI, R54), and the shape each
format gives its instructions: read all operands, compute, commit, advance (R74 to R78). -/

namespace Sys2Proof.Machine

/-- `x[i]` is `DataRead(i)` (R11). -/
def readReg (s : State) (i : RegIdx) : Except Fault Byte := dataRead s i.toNat

/-- `pair(p) = {x[p+1], x[p]}`: the low byte in the lower-numbered register (R13, R35). -/
def readPair (s : State) (p : RegIdx) : Except Fault Word :=
  match readReg s p, dataRead s (p.toNat + 1) with
  | .ok lo, .ok hi => .ok (hi ++ lo)
  | .error f, _ => .error f
  | _, .error f => .error f

/-- The write of `x[d] <- v`. -/
def regWrites (d : RegIdx) (v : Byte) : List (Nat × Byte) := [(d.toNat, v)]

/-- The two writes of `pair(p) <- v`: `x[p] <- v[7:0]` and `x[p+1] <- v[15:8]` (R5, R77). -/
def pairWrites (p : RegIdx) (v : Word) : List (Nat × Byte) :=
  [(p.toNat, v.extractLsb' 0 8), (p.toNat + 1, v.extractLsb' 8 8)]

/-- Format RR with the pure function `alu Vd Vr SREG` (R74): both operands are read before anything is written, so `d = r`
uses the old value twice (R75); an invalid index is OutOfBounds with nothing committed (R76, R77). -/
def execRR (alu : Byte → Byte → Byte → Byte × Byte) (d r : RegIdx) (s : State) : Outcome :=
  match readReg s d, readReg s r with
  | .ok vd, .ok vr => advance (commit s (regWrites d (alu vd vr s.sreg).1) (alu vd vr s.sreg).2)
  | .error f, _ => .fault f
  | _, .error f => .fault f

/-- Format WI with the pure function `alu Vd K SREG` on the pair's 16-bit value (R74, R75, R77). -/
def execWI (alu : Word → BitVec 6 → Byte → Word × Byte) (p : RegIdx) (k : BitVec 6) (s : State) : Outcome :=
  match readPair s p with
  | .ok vd => advance (commit s (pairWrites p (alu vd k s.sreg).1) (alu vd k s.sreg).2)
  | .error f => .fault f

end Sys2Proof.Machine
end

