-- ==== Sys2Proof/Machine/Arithmetic.lean ====
section
/-! DEFINITION. The meanings of the additions: ADIW, ADD, ADC. -/

namespace Sys2Proof.Machine

/-- ADIW Rp, K (R90): `pair(p) <- pair(p) + zext_16(K)`. -/
def execAdiw (p : RegIdx) (k : BitVec 6) (s : State) : Outcome := execWI addW p k s

/-- ADD Rd, Rr (R86): `Add8(x[d], x[r], 0, SREG)`; SREG.C is not read. -/
def execAdd (d r : RegIdx) (s : State) : Outcome := execRR (fun vd vr sreg => add8 vd vr false sreg) d r s

/-- ADC Rd, Rr (R87): `Add8(x[d], x[r], SREG.C, SREG)` with C as the previous step left it. -/
def execAdc (d r : RegIdx) (s : State) : Outcome := execRR (fun vd vr sreg => add8 vd vr (flag .c sreg) sreg) d r s

end Sys2Proof.Machine
end

