-- ==== Sys2Proof/Machine/Logic.lean ====
section
/-! DEFINITION. The meaning of the bitwise instruction: AND. -/

namespace Sys2Proof.Machine

/-- AND Rd, Rr (R95): `And8(x[d], x[r], SREG)`; no flag is read. -/
def execAnd (d r : RegIdx) (s : State) : Outcome := execRR and8 d r s

end Sys2Proof.Machine
end

