-- ==== Sys2Proof/Machine/Dispatch.lean ====
section
/-! DEFINITION. Dispatch (R74): the identifier the decoder returned selects one routine. -/

namespace Sys2Proof.Machine

def exec (i : Instr) (s : State) : Host.Outcome State Fault Refusal :=
  match i with
  | .adiw p k => Sys2Proof.Machine.execAdiw p k s
  | .add d r => Sys2Proof.Machine.execAdd d r s
  | .adc d r => Sys2Proof.Machine.execAdc d r s
  | .and d r => Sys2Proof.Machine.execAnd d r s

end Sys2Proof.Machine
end

