-- ==== Sys2Proof/Machine/Step.lean ====
section
/-! DEFINITION. One step of the core (40_step_cycle.md R70): Fetch, Decode, Dispatch, Execute, Writeback, Advance-PC,
returning to Idle on success. -/

namespace Sys2Proof.Machine

/-- R70. A step is requested in Idle only (R25); a fault is the value the step returns (R104), and the state it leaves is
`takeFault` (R105). -/
def step (s : State) : Host.Outcome State Fault Refusal :=
  match s.phase with
  | .executing => .refused .requestInFlight
  | .idle =>
    match fetch s with
    | .error f => .fault f
    | .ok t =>
      match decodeFetched t with
      | .error f => .fault f
      | .ok i => returnToIdle (exec i t)

/-- `s` with the instruction whose low `nbits` bits are `w` in the program word at the PC, where the next step fetches.
It stands for the load of a program (R124; log entry 14). -/
def State.withFetchWord (s : State) (nbits w : Nat) : State :=
  { s with prog := setCell s.prog s.pc.toNat (BitVec.ofNat 16 (w % 2 ^ nbits)) }

end Sys2Proof.Machine
end

