-- ==== Sys2Proof/Laws/Decode.lean ====
section
/-! SUPPORT. The decoder and the encoder in arithmetic: each field and each encoded word as a number, and `decode` as one
chain of comparisons. -/

namespace Sys2Proof

/-- A word has a 6-bit opcode in bits 15:10. -/
theorem and_mask6_eq_iff (w : Word) (o : BitVec 6) : w &&& 0xFC00#16 = o ++ 0#10 ↔ w.toNat / 1024 = o.toNat := by
  have h : w &&& 0xFC00#16 = o ++ 0#10 ↔ w.extractLsb' 10 6 = o := by
    constructor
    · intro h
      have := congrArg (fun x => BitVec.extractLsb' 10 6 x) h
      have e1 : (w &&& 0xFC00#16).extractLsb' 10 6 = w.extractLsb' 10 6 := by
        ext j hj
        have : ∀ j : Fin 6, (0xFC00#16).getLsbD (10 + j.val) = true := by decide
        simp [BitVec.getElem_extractLsb', this ⟨j, hj⟩]
      have e2 : (o ++ 0#10).extractLsb' 10 6 = o := BitVec.extractLsb'_append_eq_left
      simpa only [e1, e2] using this
    · rintro rfl
      apply BitVec.eq_of_getLsbD_eq
      intro j hj
      have : ∀ j : Fin 16, (0xFC00#16).getLsbD j.val = decide (10 ≤ j.val) := by decide
      simp only [BitVec.getLsbD_and, BitVec.getLsbD_append, this ⟨j, hj⟩, BitVec.getLsbD_extractLsb']
      by_cases h : 10 ≤ j
      · simp [h, show ¬ j < 10 by omega, show 10 + (j - 10) = j by omega, show j - 10 < 6 by omega]
      · simp [h, show j < 10 by omega]
  rw [h, ← BitVec.toNat_inj]
  have := w.isLt
  simp [Nat.shiftRight_eq_div_pow]
  omega

/-- A word has an 8-bit opcode in bits 15:8. -/
theorem and_mask8_eq_iff (w : Word) (o : BitVec 8) : w &&& 0xFF00#16 = o ++ 0#8 ↔ w.toNat / 256 = o.toNat := by
  have h : w &&& 0xFF00#16 = o ++ 0#8 ↔ w.extractLsb' 8 8 = o := by
    constructor
    · intro h
      have := congrArg (fun x => BitVec.extractLsb' 8 8 x) h
      have e1 : (w &&& 0xFF00#16).extractLsb' 8 8 = w.extractLsb' 8 8 := by
        ext j hj
        have : ∀ j : Fin 8, (0xFF00#16).getLsbD (8 + j.val) = true := by decide
        simp [BitVec.getElem_extractLsb', this ⟨j, hj⟩]
      have e2 : (o ++ 0#8).extractLsb' 8 8 = o := BitVec.extractLsb'_append_eq_left
      simpa only [e1, e2] using this
    · rintro rfl
      apply BitVec.eq_of_getLsbD_eq
      intro j hj
      have : ∀ j : Fin 16, (0xFF00#16).getLsbD j.val = decide (8 ≤ j.val) := by decide
      simp only [BitVec.getLsbD_and, BitVec.getLsbD_append, this ⟨j, hj⟩, BitVec.getLsbD_extractLsb']
      by_cases h : 8 ≤ j
      · simp [h, show ¬ j < 8 by omega, show 8 + (j - 8) = j by omega, show j - 8 < 8 by omega]
      · simp [h, show j < 8 by omega]
  rw [h, ← BitVec.toNat_inj]
  have := w.isLt
  simp [Nat.shiftRight_eq_div_pow]
  omega

/-- The decoder as one chain of comparisons of the opcode fields. -/
theorem decode_eq (c : Config) (w : Word) : decode c w =
    if w.toNat / 256 = c.opcAdiw.toNat then .ok (.adiw (fieldP w) (fieldK w))
    else if w.toNat / 1024 = c.opcAdd.toNat then .ok (.add (fieldD w) (fieldR w))
    else if w.toNat / 1024 = c.opcAdc.toNat then .ok (.adc (fieldD w) (fieldR w))
    else if w.toNat / 1024 = c.opcAnd.toNat then .ok (.and (fieldD w) (fieldR w))
    else .error .unknownOpcode := by
  unfold decode decodeTable
  simp only [firstMatch, operandsOf, and_mask6_eq_iff, and_mask8_eq_iff]

theorem fieldD_toNat (w : Word) : (fieldD w).toNat = w.toNat / 16 % 32 := by
  simp [fieldD, Nat.shiftRight_eq_div_pow]

theorem fieldR_toNat (w : Word) : (fieldR w).toNat = 16 * (w.toNat / 512 % 2) + w.toNat % 16 := by
  have e : (fieldR w).toNat = (w.extractLsb' 9 1).toNat <<< 4 ||| (w.extractLsb' 0 4).toNat := BitVec.toNat_append _ _
  rw [e, ← Nat.shiftLeft_add_eq_or_of_lt (by exact (w.extractLsb' 0 4).isLt)]
  simp [Nat.shiftRight_eq_div_pow, Nat.shiftLeft_eq]
  omega

theorem fieldK_toNat (w : Word) : (fieldK w).toNat = 16 * (w.toNat / 64 % 4) + w.toNat % 16 := by
  have e : (fieldK w).toNat = (w.extractLsb' 6 2).toNat <<< 4 ||| (w.extractLsb' 0 4).toNat := BitVec.toNat_append _ _
  rw [e, ← Nat.shiftLeft_add_eq_or_of_lt (by exact (w.extractLsb' 0 4).isLt)]
  simp [Nat.shiftRight_eq_div_pow, Nat.shiftLeft_eq]
  omega

theorem fieldP_toNat (w : Word) : (fieldP w).toNat = 24 + 2 * (w.toNat / 16 % 4) := by
  have : ∀ x : BitVec 2, (24#5 + 2#5 * x.setWidth 5).toNat = 24 + 2 * x.toNat := by decide
  rw [fieldP, this]
  simp [Nat.shiftRight_eq_div_pow]

theorem fieldP_isPairLow (w : Word) : IsPairLow (fieldP w) := by
  have : ∀ x : BitVec 2, IsPairLow (24#5 + 2#5 * x.setWidth 5) := by decide
  exact this _

/-- `enc_RR` of R63 as a number. -/
theorem encodeRR_toNat (o : BitVec 6) (d r : RegIdx) :
    (encodeRR o d r).toNat = o.toNat * 1024 + r.toNat / 16 * 512 + d.toNat * 16 + r.toNat % 16 := by
  have hd := d.isLt
  have hr := r.isLt
  simp only [encodeRR, BitVec.toNat_append]
  rw [← Nat.shiftLeft_add_eq_or_of_lt (by exact (r.extractLsb' 0 4).isLt),
    ← Nat.shiftLeft_add_eq_or_of_lt (by exact d.isLt), ← Nat.shiftLeft_add_eq_or_of_lt (by exact (r.extractLsb' 4 1).isLt)]
  simp [Nat.shiftRight_eq_div_pow, Nat.shiftLeft_eq]
  omega

/-- `enc_ADIW` of R63 as a number. -/
theorem encodeWI_toNat (o : BitVec 8) (p : RegIdx) (k : BitVec 6) (hp : IsPairLow p) :
    (encodeWI o p k).toNat = o.toNat * 256 + k.toNat / 16 * 64 + (p.toNat - 24) / 2 * 16 + k.toNat % 16 := by
  have hk := k.isLt
  have hq : ∀ p : RegIdx, IsPairLow p → ((p - 24#5).extractLsb' 1 2).toNat = (p.toNat - 24) / 2 := by decide
  simp only [encodeWI, BitVec.toNat_append]
  rw [← Nat.shiftLeft_add_eq_or_of_lt (by exact (k.extractLsb' 0 4).isLt),
    ← Nat.shiftLeft_add_eq_or_of_lt (by exact ((p - 24#5).extractLsb' 1 2).isLt),
    ← Nat.shiftLeft_add_eq_or_of_lt (by exact (k.extractLsb' 4 2).isLt), hq p hp]
  simp [Nat.shiftRight_eq_div_pow, Nat.shiftLeft_eq]
  omega

/-- A word that decodes, decodes to a well-formed instruction. -/
theorem decode_wf {c : Config} {w : Word} {i : Instr} (h : decode c w = .ok i) : i.Wf := by
  rw [decode_eq] at h
  repeat' split at h
  all_goals first | (cases h; done) | skip
  · cases h; exact fieldP_isPairLow w
  all_goals (cases h; trivial)

end Sys2Proof
end

