-- ==== Sys2Proof/Laws/State.lean ====
section
/-! SUPPORT. What each field of the state is after each update: one lemma per field per update. -/

namespace Sys2Proof.Machine

section New
variable (c : Config)
@[simp] theorem new_cfg : (State.new c).cfg = c := rfl
@[simp] theorem new_data : (State.new c).data = [] := rfl
@[simp] theorem new_prog : (State.new c).prog = [] := rfl
@[simp] theorem new_eeprom : (State.new c).eeprom = [] := rfl
@[simp] theorem new_sreg : (State.new c).sreg = 0 := rfl
@[simp] theorem new_pc : (State.new c).pc = 0 := rfl
@[simp] theorem new_ir : (State.new c).ir = 0 := rfl
@[simp] theorem new_phase : (State.new c).phase = .idle := rfl
end New

section FetchWord
variable (s : State) (n w : Nat)
@[simp] theorem withFetchWord_cfg : (s.withFetchWord n w).cfg = s.cfg := rfl
@[simp] theorem withFetchWord_data : (s.withFetchWord n w).data = s.data := rfl
@[simp] theorem withFetchWord_prog :
    (s.withFetchWord n w).prog = setCell s.prog s.pc.toNat (BitVec.ofNat 16 (w % 2 ^ n)) := rfl
@[simp] theorem withFetchWord_eeprom : (s.withFetchWord n w).eeprom = s.eeprom := rfl
@[simp] theorem withFetchWord_sreg : (s.withFetchWord n w).sreg = s.sreg := rfl
@[simp] theorem withFetchWord_pc : (s.withFetchWord n w).pc = s.pc := rfl
@[simp] theorem withFetchWord_ir : (s.withFetchWord n w).ir = s.ir := rfl
@[simp] theorem withFetchWord_phase : (s.withFetchWord n w).phase = s.phase := rfl
end FetchWord

section PutData
variable (s : State) (a : Nat) (v : Byte)
@[simp] theorem putData_cfg : (putData s a v).cfg = s.cfg := by unfold putData; split <;> rfl
@[simp] theorem putData_prog : (putData s a v).prog = s.prog := by unfold putData; split <;> rfl
@[simp] theorem putData_eeprom : (putData s a v).eeprom = s.eeprom := by unfold putData; split <;> rfl
@[simp] theorem putData_pc : (putData s a v).pc = s.pc := by unfold putData; split <;> rfl
@[simp] theorem putData_ir : (putData s a v).ir = s.ir := by unfold putData; split <;> rfl
@[simp] theorem putData_phase : (putData s a v).phase = s.phase := by unfold putData; split <;> rfl
theorem putData_data_of_ne (h : a ≠ s.cfg.sregAddr) : (putData s a v).data = setCell s.data a v := by simp [putData, h]
theorem putData_sreg_of_ne (h : a ≠ s.cfg.sregAddr) : (putData s a v).sreg = s.sreg := by simp [putData, h]
theorem putData_data_of_eq (h : a = s.cfg.sregAddr) : (putData s a v).data = s.data := by simp [putData, h]
theorem putData_sreg_of_eq (h : a = s.cfg.sregAddr) : (putData s a v).sreg = v := by simp [putData, h]
end PutData

end Sys2Proof.Machine
end

