-- ==== Sys2Proof/Laws/Flags.lean ====
section
/-! SUPPORT. The bits of the status byte the flag engine builds. -/

namespace Sys2Proof.Machine

section SregOf
variable (i t h s v n z c : Bool)
theorem sregOf_bit0 : (sregOf i t h s v n z c).getLsbD 0 = c := by revert i t h s v n z c; decide
theorem sregOf_bit1 : (sregOf i t h s v n z c).getLsbD 1 = z := by revert i t h s v n z c; decide
theorem sregOf_bit2 : (sregOf i t h s v n z c).getLsbD 2 = n := by revert i t h s v n z c; decide
theorem sregOf_bit3 : (sregOf i t h s v n z c).getLsbD 3 = v := by revert i t h s v n z c; decide
theorem sregOf_bit4 : (sregOf i t h s v n z c).getLsbD 4 = s := by revert i t h s v n z c; decide
theorem sregOf_bit5 : (sregOf i t h s v n z c).getLsbD 5 = h := by revert i t h s v n z c; decide
theorem sregOf_bit6 : (sregOf i t h s v n z c).getLsbD 6 = t := by revert i t h s v n z c; decide
theorem sregOf_bit7 : (sregOf i t h s v n z c).getLsbD 7 = i := by revert i t h s v n z c; decide
@[simp] theorem sregOf_getElem0 : (sregOf i t h s v n z c)[0] = c := sregOf_bit0 i t h s v n z c
@[simp] theorem sregOf_getElem1 : (sregOf i t h s v n z c)[1] = z := sregOf_bit1 i t h s v n z c
@[simp] theorem sregOf_getElem2 : (sregOf i t h s v n z c)[2] = n := sregOf_bit2 i t h s v n z c
@[simp] theorem sregOf_getElem3 : (sregOf i t h s v n z c)[3] = v := sregOf_bit3 i t h s v n z c
@[simp] theorem sregOf_getElem4 : (sregOf i t h s v n z c)[4] = s := sregOf_bit4 i t h s v n z c
@[simp] theorem sregOf_getElem5 : (sregOf i t h s v n z c)[5] = h := sregOf_bit5 i t h s v n z c
@[simp] theorem sregOf_getElem6 : (sregOf i t h s v n z c)[6] = t := sregOf_bit6 i t h s v n z c
@[simp] theorem sregOf_getElem7 : (sregOf i t h s v n z c)[7] = i := sregOf_bit7 i t h s v n z c
@[simp] theorem flag_c_sregOf : flag .c (sregOf i t h s v n z c) = c := sregOf_bit0 i t h s v n z c
@[simp] theorem flag_z_sregOf : flag .z (sregOf i t h s v n z c) = z := sregOf_bit1 i t h s v n z c
@[simp] theorem flag_n_sregOf : flag .n (sregOf i t h s v n z c) = n := sregOf_bit2 i t h s v n z c
@[simp] theorem flag_v_sregOf : flag .v (sregOf i t h s v n z c) = v := sregOf_bit3 i t h s v n z c
@[simp] theorem flag_s_sregOf : flag .s (sregOf i t h s v n z c) = s := sregOf_bit4 i t h s v n z c
@[simp] theorem flag_h_sregOf : flag .h (sregOf i t h s v n z c) = h := sregOf_bit5 i t h s v n z c
@[simp] theorem flag_t_sregOf : flag .t (sregOf i t h s v n z c) = t := sregOf_bit6 i t h s v n z c
@[simp] theorem flag_i_sregOf : flag .i (sregOf i t h s v n z c) = i := sregOf_bit7 i t h s v n z c
end SregOf

/-- A status byte is its eight flags. -/
theorem sregOf_flags (sreg : Byte) :
    sregOf (flag .i sreg) (flag .t sreg) (flag .h sreg) (flag .s sreg) (flag .v sreg) (flag .n sreg) (flag .z sreg)
      (flag .c sreg) = sreg := by
  revert sreg; decide

/-- The zero flag of an 8-bit result, in arithmetic. -/
theorem beq_zero8 (r : Byte) : (r == 0#8) = decide (r.toNat = 0) := by revert r; decide

/-- The zero flag of a 16-bit result, in arithmetic. -/
theorem beq_zero16 (r : Word) : (r == 0#16) = decide (r.toNat = 0) := by
  by_cases h : r = 0#16
  · simp [h]
  · simp only [beq_eq_false_iff_ne.2 h, Bool.false_eq, decide_eq_false_iff_not]
    exact fun hr => h (BitVec.eq_of_toNat_eq hr)

/-- The shared adder's result in arithmetic (R85). -/
theorem add8_toNat (vd vr : Byte) (cin : Bool) (sreg : Byte) :
    (add8 vd vr cin sreg).1.toNat = (vd.toNat + vr.toNat + cin.toNat) % 256 := by
  have : ((BitVec.ofBool cin).setWidth 8).toNat = cin.toNat := by cases cin <;> rfl
  simp only [add8, BitVec.toNat_add, this]
  omega

/-- ADIW's result in arithmetic (R90). -/
theorem addW_toNat (vd : Word) (k : BitVec 6) (sreg : Byte) : (addW vd k sreg).1.toNat = (vd.toNat + k.toNat) % 65536 := by
  have := k.isLt
  simp only [addW, BitVec.toNat_add, BitVec.toNat_setWidth]
  omega

end Sys2Proof.Machine
end

