-- ==== Sys2Proof/Laws/Memory.lean ====
section
/-! SUPPORT. The bounded store: what a cell reads as after an update, and that every memory operation keeps the canonical
form. -/

namespace Sys2Proof.Machine

variable {w : Nat}

/-! ### The canonical form -/

theorem wf_nil : Memory.Wf ([] : Memory w) := by simp [Memory.Wf]

theorem wf_tail {c : Nat × BitVec w} {m : Memory w} (h : Memory.Wf (c :: m)) : Memory.Wf m :=
  ⟨(List.pairwise_cons.1 h.1).2, fun e he => h.2 e (List.mem_cons_of_mem _ he)⟩

theorem wf_head_lt {c : Nat × BitVec w} {m : Memory w} (h : Memory.Wf (c :: m)) : ∀ e ∈ m, c.1 < e.1 :=
  (List.pairwise_cons.1 h.1).1

theorem wf_cons {c : Nat × BitVec w} {m : Memory w} (hm : Memory.Wf m) (hlt : ∀ e ∈ m, c.1 < e.1) (hc : c.2 ≠ 0#w) :
    Memory.Wf (c :: m) :=
  ⟨List.pairwise_cons.2 ⟨hlt, hm.1⟩, fun e he => by
    rcases List.mem_cons.1 he with rfl | he
    · exact hc
    · exact hm.2 e he⟩

theorem mem_consCell {a : Nat} {v : BitVec w} {m : Memory w} {c : Nat × BitVec w} (h : c ∈ consCell a v m) :
    c = (a, v) ∨ c ∈ m := by
  unfold consCell at h
  split at h
  · exact .inr h
  · simpa using h

theorem consCell_wf {a : Nat} {v : BitVec w} {m : Memory w} (hm : Memory.Wf m) (hlt : ∀ e ∈ m, a < e.1) :
    Memory.Wf (consCell a v m) := by
  unfold consCell
  split
  · exact hm
  · exact wf_cons hm hlt (by assumption)

theorem mem_setCell {m : Memory w} {a : Nat} {v : BitVec w} {c : Nat × BitVec w} (h : c ∈ setCell m a v) :
    c = (a, v) ∨ c ∈ m := by
  induction m with
  | nil => exact mem_consCell h
  | cons e rest ih =>
    simp only [setCell] at h
    split at h
    · exact mem_consCell h
    · split at h
      · exact (mem_consCell h).imp_right (List.mem_cons_of_mem _)
      · rcases List.mem_cons.1 h with rfl | h
        · exact .inr (List.mem_cons_self ..)
        · exact (ih h).imp_right (List.mem_cons_of_mem _)

/-- A write keeps the canonical form. -/
theorem setCell_wf {m : Memory w} (h : Memory.Wf m) (a : Nat) (v : BitVec w) : Memory.Wf (setCell m a v) := by
  induction m with
  | nil => exact consCell_wf wf_nil (by simp)
  | cons e rest ih =>
    have hlt := wf_head_lt h
    simp only [setCell]
    split
    · rename_i ha
      exact consCell_wf h fun c hc => by
        rcases List.mem_cons.1 hc with rfl | hc
        · exact ha
        · exact ha.trans (hlt c hc)
    · split
      · rename_i ha
        exact consCell_wf (wf_tail h) fun c hc => ha ▸ hlt c hc
      · refine wf_cons (ih (wf_tail h)) (fun c hc => ?_) (h.2 e (List.mem_cons_self ..))
        rcases mem_setCell hc with rfl | hc
        · change e.1 < a; omega
        · exact hlt c hc

/-- A write inside the capacity lists no cell outside it. -/
theorem setCell_within {capacity : Nat} {m : Memory w} (h : Memory.Within capacity m) {a : Nat} (ha : a < capacity)
    (v : BitVec w) : Memory.Within capacity (setCell m a v) := fun c hc => by
  rcases mem_setCell hc with rfl | hc
  · exact ha
  · exact h c hc

/-- A successful bounded write keeps the canonical form and the bound. -/
theorem boundedWrite_wf {capacity : Nat} {m m' : Memory w} {a : Nat} {v : BitVec w} (h : Memory.Wf m)
    (hb : Memory.Within capacity m) (hw : boundedWrite capacity m a v = .ok m') :
    Memory.Wf m' ∧ Memory.Within capacity m' := by
  unfold boundedWrite at hw
  split at hw
  · cases hw; exact ⟨setCell_wf h a v, setCell_within hb (by assumption) v⟩
  · cases hw

/-! ### What a cell reads as -/

theorem cell_of_forall_ne {m : Memory w} {a : Nat} (h : ∀ c ∈ m, c.1 ≠ a) : cell m a = 0#w := by
  induction m with
  | nil => rfl
  | cons e rest ih =>
    simp only [cell, if_neg (h e (List.mem_cons_self ..))]
    exact ih fun c hc => h c (List.mem_cons_of_mem _ hc)

theorem cell_consCell_same {m : Memory w} {a : Nat} (h : ∀ c ∈ m, c.1 ≠ a) (v : BitVec w) :
    cell (consCell a v m) a = v := by
  unfold consCell
  split
  · rw [cell_of_forall_ne h]; symm; assumption
  · simp [cell]

theorem cell_consCell_of_ne {m : Memory w} {a b : Nat} (h : b ≠ a) (v : BitVec w) :
    cell (consCell a v m) b = cell m b := by
  unfold consCell
  split
  · rfl
  · simp [cell, h.symm]

theorem cell_setCell_same {m : Memory w} (h : Memory.Wf m) (a : Nat) (v : BitVec w) : cell (setCell m a v) a = v := by
  induction m with
  | nil => exact cell_consCell_same (by simp) v
  | cons e rest ih =>
    have hlt := wf_head_lt h
    simp only [setCell]
    split
    · rename_i ha
      refine cell_consCell_same (fun c hc => ?_) v
      rcases List.mem_cons.1 hc with rfl | hc
      · omega
      · have := hlt c hc; omega
    · split
      · rename_i ha
        exact cell_consCell_same (fun c hc => by have := hlt c hc; omega) v
      · rename_i ha
        simp only [cell, if_neg (Ne.symm ha)]
        exact ih (wf_tail h)

theorem cell_setCell_of_ne {m : Memory w} {a b : Nat} (hab : b ≠ a) (v : BitVec w) :
    cell (setCell m a v) b = cell m b := by
  induction m with
  | nil => exact cell_consCell_of_ne hab v
  | cons e rest ih =>
    simp only [setCell]
    split
    · exact cell_consCell_of_ne hab v
    · split
      · rename_i ha
        rw [cell_consCell_of_ne hab, cell, if_neg (by omega)]
      · simp only [cell]
        split
        · rfl
        · exact ih

/-! ### The images of the loads -/

theorem imageCells_ge (i : Nat) (bytes : List Byte) : ∀ c ∈ imageCells i bytes, i ≤ c.1 := by
  induction i, bytes using imageCells.induct with
  | case1 => simp [imageCells]
  | case2 i lo =>
    intro c hc
    rcases mem_consCell hc with rfl | hc
    · exact le_refl _
    · cases hc
  | case3 i lo hi rest ih =>
    intro c hc
    rcases mem_consCell hc with rfl | hc
    · exact le_refl _
    · exact (Nat.le_succ i).trans (ih c hc)

theorem imageCells_lt (i : Nat) (bytes : List Byte) : ∀ c ∈ imageCells i bytes, 2 * c.1 < 2 * i + bytes.length := by
  induction i, bytes using imageCells.induct with
  | case1 => simp [imageCells]
  | case2 i lo =>
    intro c hc
    rcases mem_consCell hc with rfl | hc
    · simp
    · cases hc
  | case3 i lo hi rest ih =>
    intro c hc
    rcases mem_consCell hc with rfl | hc
    · simp
    · have := ih c hc
      simp only [List.length_cons]
      omega

/-- A program image is in canonical form. -/
theorem imageCells_wf (i : Nat) (bytes : List Byte) : Memory.Wf (imageCells i bytes) := by
  induction i, bytes using imageCells.induct with
  | case1 => exact wf_nil
  | case2 i lo => exact consCell_wf wf_nil (by simp)
  | case3 i lo hi rest ih => exact consCell_wf ih fun c hc => imageCells_ge (i + 1) rest c hc

theorem byteCells_range (i : Nat) (bytes : List Byte) :
    ∀ c ∈ byteCells i bytes, i ≤ c.1 ∧ c.1 < i + bytes.length := by
  induction bytes generalizing i with
  | nil => simp [byteCells]
  | cons b rest ih =>
    intro c hc
    rcases mem_consCell hc with rfl | hc
    · simp
    · have := ih (i + 1) c hc
      simp only [List.length_cons]
      omega

/-- An EEPROM image is in canonical form. -/
theorem byteCells_wf (i : Nat) (bytes : List Byte) : Memory.Wf (byteCells i bytes) := by
  induction bytes generalizing i with
  | nil => exact wf_nil
  | cons b rest ih => exact consCell_wf (ih (i + 1)) fun c hc => (byteCells_range (i + 1) rest c hc).1

/-- A program image's word `j` is its two bytes, the higher-addressed one above, zeros beyond the buffer (R124). -/
theorem cell_imageCells (i : Nat) (bytes : List Byte) (j : Nat) :
    cell (imageCells i bytes) (i + j) = bytes.getD (2 * j + 1) 0 ++ bytes.getD (2 * j) 0 := by
  induction i, bytes using imageCells.induct generalizing j with
  | case1 i => simp [imageCells, cell]
  | case2 i lo =>
    cases j with
    | zero => exact (cell_consCell_same (m := []) (a := i) (by simp) _).trans (by simp)
    | succ j => rw [imageCells, cell_consCell_of_ne (by omega)]; simp [cell]
  | case3 i lo hi rest ih =>
    cases j with
    | zero =>
      exact (cell_consCell_same (a := i) (fun c hc => by have := imageCells_ge _ _ c hc; omega) _).trans (by simp)
    | succ j =>
      rw [imageCells, cell_consCell_of_ne (by omega), show i + (j + 1) = i + 1 + j by omega, ih j,
        show 2 * (j + 1) + 1 = 2 * j + 1 + 1 + 1 by omega, show 2 * (j + 1) = 2 * j + 1 + 1 by omega]
      simp

/-- An EEPROM image's cell `j` is byte `j`, zero beyond the buffer (R126). -/
theorem cell_byteCells (i : Nat) (bytes : List Byte) (j : Nat) : cell (byteCells i bytes) (i + j) = bytes.getD j 0 := by
  induction bytes generalizing i j with
  | nil => simp [byteCells, cell]
  | cons b rest ih =>
    cases j with
    | zero =>
      exact (cell_consCell_same (a := i) (fun c hc => by have := byteCells_range _ _ c hc; omega) _).trans (by simp)
    | succ j => rw [byteCells, cell_consCell_of_ne (by omega), show i + (j + 1) = i + 1 + j by omega, ih]; simp

/-- The stores of a newly constructed core are in canonical form. -/
theorem new_stores_wf (c : Config) :
    Memory.Wf (State.new c).data ∧ Memory.Wf (State.new c).prog ∧ Memory.Wf (State.new c).eeprom := by
  simp [Memory.Wf]

/-- The memory of the reset state is in canonical form. -/
theorem reset_memory_wf :
    Memory.wf State.reset.data = true ∧ Memory.wf State.reset.prog = true ∧ Memory.wf State.reset.eeprom = true := by
  decide

end Sys2Proof.Machine
end

