-- ==== Sys2Proof/Laws/Ops.lean ====
section
/-! SUPPORT. What each shared operation can do, once: the data accesses, the fetch, the commit, the two instruction shapes. -/

namespace Sys2Proof.Machine

/-! ### Data accesses -/

theorem dataRead_of_lt {s : State} {a : Nat} (h : a < s.cfg.dataCapacity) :
    dataRead s a = .ok (if a = s.cfg.sregAddr then s.sreg else cell s.data a) := by
  unfold dataRead boundedRead; simp only [h, if_true]; split <;> rfl

theorem dataRead_of_ge {s : State} {a : Nat} (h : s.cfg.dataCapacity ≤ a) : dataRead s a = .error .outOfBounds := by
  unfold dataRead boundedRead; simp only [Nat.not_lt.2 h, if_false]; split <;> rfl

theorem dataRead_ok {s : State} {a : Nat} {v : Byte} (h : dataRead s a = .ok v) :
    a < s.cfg.dataCapacity ∧ v = if a = s.cfg.sregAddr then s.sreg else cell s.data a := by
  by_cases ha : a < s.cfg.dataCapacity
  · rw [dataRead_of_lt ha] at h; cases h; exact ⟨ha, rfl⟩
  · rw [dataRead_of_ge (Nat.not_lt.1 ha)] at h; cases h

theorem dataRead_error {s : State} {a : Nat} {f : Fault} (h : dataRead s a = .error f) :
    s.cfg.dataCapacity ≤ a ∧ f = .outOfBounds := by
  by_cases ha : a < s.cfg.dataCapacity
  · rw [dataRead_of_lt ha] at h; cases h
  · rw [dataRead_of_ge (Nat.not_lt.1 ha)] at h; cases h; exact ⟨Nat.not_lt.1 ha, rfl⟩

/-- A read depends on the configuration, the cells and SREG alone. -/
theorem dataRead_congr {s t : State} {a : Nat} (hc : t.cfg = s.cfg) (hd : cell t.data a = cell s.data a)
    (hs : t.sreg = s.sreg ∨ a ≠ s.cfg.sregAddr) : dataRead t a = dataRead s a := by
  unfold dataRead boundedRead
  rw [hc, hd]
  split
  · rcases hs with hs | hs
    · rw [hs]
    · contradiction
  · rfl

/-! ### The fetch -/

theorem progRead_of_lt {s : State} {a : Nat} (h : a < s.cfg.progCapacity) : progRead s a = .ok (cell s.prog a) := by
  simp [progRead, boundedRead, h]

theorem progRead_of_ge {s : State} {a : Nat} (h : s.cfg.progCapacity ≤ a) : progRead s a = .error .outOfBounds := by
  simp [progRead, boundedRead, h]

theorem progRead_ok {s : State} {a : Nat} {w : Word} (h : progRead s a = .ok w) :
    a < s.cfg.progCapacity ∧ w = cell s.prog a := by
  by_cases ha : a < s.cfg.progCapacity
  · rw [progRead_of_lt ha] at h; cases h; exact ⟨ha, rfl⟩
  · rw [progRead_of_ge (Nat.not_lt.1 ha)] at h; cases h

theorem fetch_of_lt {s : State} (h : s.pc.toNat < s.cfg.progCapacity) :
    fetch s = .ok { s with ir := cell s.prog s.pc.toNat, phase := .executing } := by
  simp [fetch, progRead_of_lt h]

theorem fetch_of_ge {s : State} (h : s.cfg.progCapacity ≤ s.pc.toNat) : fetch s = .error .outOfBounds := by
  simp [fetch, progRead_of_ge h]

theorem takeFault_of_lt {s : State} (h : s.pc.toNat < s.cfg.progCapacity) :
    takeFault s = { s with ir := cell s.prog s.pc.toNat, phase := .idle } := by
  simp [takeFault, fetch_of_lt h]

theorem takeFault_of_ge {s : State} (h : s.cfg.progCapacity ≤ s.pc.toNat) : takeFault s = { s with phase := .idle } := by
  simp [takeFault, fetch_of_ge h]

/-- Between two steps a fault changes the IR at most. -/
theorem takeFault_of_idle {s : State} (h : s.phase = .idle) :
    takeFault s = s ∨ takeFault s = { s with ir := cell s.prog s.pc.toNat } := by
  by_cases hl : s.pc.toNat < s.cfg.progCapacity
  · right; rw [takeFault_of_lt hl, h]
  · left; rw [takeFault_of_ge (Nat.not_lt.1 hl), ← h]

/-! ### The commit and the two instruction shapes -/

theorem commit_reg {s : State} {d : RegIdx} {v : Byte} {sreg : Byte} (h : d.toNat < s.cfg.dataCapacity) :
    commit s (regWrites d v) sreg = .ok { putData s d.toNat v with sreg := sreg } := by
  simp [commit, destinationsValid, regWrites, h]

theorem commit_pair {s : State} {p : RegIdx} {v : Word} {sreg : Byte} (h : p.toNat + 1 < s.cfg.dataCapacity) :
    commit s (pairWrites p v) sreg =
      .ok { putData (putData s p.toNat (v.extractLsb' 0 8)) (p.toNat + 1) (v.extractLsb' 8 8) with sreg := sreg } := by
  simp [commit, destinationsValid, pairWrites, h, show p.toNat < s.cfg.dataCapacity by omega]

/-- The state a completed instruction of format RR leaves. -/
def rrState (alu : Byte → Byte → Byte → Byte × Byte) (d : RegIdx) (vd vr : Byte) (s : State) : State :=
  { putData s d.toNat (alu vd vr s.sreg).1 with sreg := (alu vd vr s.sreg).2, pc := s.pc + 1#16 }

/-- The state a completed instruction of format WI leaves. -/
def wiState (alu : Word → BitVec 6 → Byte → Word × Byte) (p : RegIdx) (k : BitVec 6) (vd : Word) (s : State) : State :=
  { putData (putData s p.toNat ((alu vd k s.sreg).1.extractLsb' 0 8)) (p.toNat + 1) ((alu vd k s.sreg).1.extractLsb' 8 8)
    with sreg := (alu vd k s.sreg).2, pc := s.pc + 1#16 }

variable {alu : Byte → Byte → Byte → Byte × Byte} {aluW : Word → BitVec 6 → Byte → Word × Byte}
  {d r p : RegIdx} {k : BitVec 6} {s t : State}

theorem execRR_completes {vd vr : Byte} (hd : dataRead s d.toNat = .ok vd) (hr : dataRead s r.toNat = .ok vr) :
    execRR alu d r s = .next (rrState alu d vd vr s) := by
  simp [execRR, readReg, hd, hr, commit_reg (dataRead_ok hd).1, advance, rrState]

theorem execRR_faults (h : s.cfg.dataCapacity ≤ d.toNat ∨ s.cfg.dataCapacity ≤ r.toNat) :
    execRR alu d r s = .fault .outOfBounds := by
  unfold execRR readReg
  by_cases hd : d.toNat < s.cfg.dataCapacity
  · rw [dataRead_of_lt hd, dataRead_of_ge (by omega)]
  · rw [dataRead_of_ge (by omega)]

/-- Everything format RR can do: complete with the state `rrState`, or fault with OutOfBounds. -/
theorem execRR_cases (alu : Byte → Byte → Byte → Byte × Byte) (d r : RegIdx) (s : State) :
    (∃ vd vr, dataRead s d.toNat = .ok vd ∧ dataRead s r.toNat = .ok vr ∧
      execRR alu d r s = .next (rrState alu d vd vr s)) ∨
    ((s.cfg.dataCapacity ≤ d.toNat ∨ s.cfg.dataCapacity ≤ r.toNat) ∧ execRR alu d r s = .fault .outOfBounds) := by
  by_cases h : s.cfg.dataCapacity ≤ d.toNat ∨ s.cfg.dataCapacity ≤ r.toNat
  · exact .inr ⟨h, execRR_faults h⟩
  · have hd := dataRead_of_lt (s := s) (a := d.toNat) (by omega)
    have hr := dataRead_of_lt (s := s) (a := r.toNat) (by omega)
    exact .inl ⟨_, _, hd, hr, execRR_completes hd hr⟩

theorem execRR_next (h : execRR alu d r s = .next t) :
    ∃ vd vr, dataRead s d.toNat = .ok vd ∧ dataRead s r.toNat = .ok vr ∧ t = rrState alu d vd vr s := by
  rcases execRR_cases alu d r s with ⟨vd, vr, hd, hr, he⟩ | ⟨-, he⟩
  · rw [he] at h; cases h; exact ⟨vd, vr, hd, hr, rfl⟩
  · rw [he] at h; cases h

theorem execWI_completes {lo hi : Byte} (hl : dataRead s p.toNat = .ok lo) (hh : dataRead s (p.toNat + 1) = .ok hi) :
    execWI aluW p k s = .next (wiState aluW p k (hi ++ lo) s) := by
  simp [execWI, readPair, readReg, hl, hh, commit_pair (dataRead_ok hh).1, advance, wiState]

theorem execWI_faults (h : s.cfg.dataCapacity ≤ p.toNat + 1) : execWI aluW p k s = .fault .outOfBounds := by
  unfold execWI readPair readReg
  by_cases hp : p.toNat < s.cfg.dataCapacity
  · rw [dataRead_of_lt hp, dataRead_of_ge h]
  · rw [dataRead_of_ge (Nat.not_lt.1 hp)]

/-- Everything format WI can do: complete with the state `wiState`, or fault with OutOfBounds. -/
theorem execWI_cases (alu : Word → BitVec 6 → Byte → Word × Byte) (p : RegIdx) (k : BitVec 6) (s : State) :
    (∃ lo hi : Byte, dataRead s p.toNat = .ok lo ∧ dataRead s (p.toNat + 1) = .ok hi ∧
      execWI alu p k s = .next (wiState alu p k (hi ++ lo) s)) ∨
    (s.cfg.dataCapacity ≤ p.toNat + 1 ∧ execWI alu p k s = .fault .outOfBounds) := by
  by_cases h : s.cfg.dataCapacity ≤ p.toNat + 1
  · exact .inr ⟨h, execWI_faults h⟩
  · have hl := dataRead_of_lt (s := s) (a := p.toNat) (by omega)
    have hh := dataRead_of_lt (s := s) (a := p.toNat + 1) (by omega)
    exact .inl ⟨_, _, hl, hh, execWI_completes hl hh⟩

theorem execWI_next (h : execWI aluW p k s = .next t) :
    ∃ lo hi : Byte, dataRead s p.toNat = .ok lo ∧ dataRead s (p.toNat + 1) = .ok hi ∧
      t = wiState aluW p k (hi ++ lo) s := by
  rcases execWI_cases aluW p k s with ⟨lo, hi, hl, hh, he⟩ | ⟨-, he⟩
  · rw [he] at h; cases h; exact ⟨lo, hi, hl, hh, rfl⟩
  · rw [he] at h; cases h

section ShapeFields
variable (alu : Byte → Byte → Byte → Byte × Byte) (aluW : Word → BitVec 6 → Byte → Word × Byte)
  (d p : RegIdx) (k : BitVec 6) (vd vr : Byte) (vw : Word) (s : State)
@[simp] theorem rrState_cfg : (rrState alu d vd vr s).cfg = s.cfg := by simp [rrState]
@[simp] theorem rrState_prog : (rrState alu d vd vr s).prog = s.prog := by simp [rrState]
@[simp] theorem rrState_eeprom : (rrState alu d vd vr s).eeprom = s.eeprom := by simp [rrState]
@[simp] theorem rrState_pc : (rrState alu d vd vr s).pc = s.pc + 1#16 := rfl
@[simp] theorem rrState_ir : (rrState alu d vd vr s).ir = s.ir := by simp [rrState]
@[simp] theorem rrState_phase : (rrState alu d vd vr s).phase = s.phase := by simp [rrState]
@[simp] theorem rrState_sreg : (rrState alu d vd vr s).sreg = (alu vd vr s.sreg).2 := rfl
theorem rrState_data (h : d.toNat ≠ s.cfg.sregAddr) :
    (rrState alu d vd vr s).data = setCell s.data d.toNat (alu vd vr s.sreg).1 := by
  simp [rrState, putData_data_of_ne _ _ _ h]
@[simp] theorem wiState_cfg : (wiState aluW p k vw s).cfg = s.cfg := by simp [wiState]
@[simp] theorem wiState_prog : (wiState aluW p k vw s).prog = s.prog := by simp [wiState]
@[simp] theorem wiState_eeprom : (wiState aluW p k vw s).eeprom = s.eeprom := by simp [wiState]
@[simp] theorem wiState_pc : (wiState aluW p k vw s).pc = s.pc + 1#16 := rfl
@[simp] theorem wiState_ir : (wiState aluW p k vw s).ir = s.ir := by simp [wiState]
@[simp] theorem wiState_phase : (wiState aluW p k vw s).phase = s.phase := by simp [wiState]
@[simp] theorem wiState_sreg : (wiState aluW p k vw s).sreg = (aluW vw k s.sreg).2 := rfl
theorem wiState_data (h : p.toNat ≠ s.cfg.sregAddr) (h' : p.toNat + 1 ≠ s.cfg.sregAddr) :
    (wiState aluW p k vw s).data =
      setCell (setCell s.data p.toNat ((aluW vw k s.sreg).1.extractLsb' 0 8)) (p.toNat + 1)
        ((aluW vw k s.sreg).1.extractLsb' 8 8) := by
  simp [wiState, putData_data_of_ne, h, h']
end ShapeFields

/-- A cell other than the destination keeps what it holds, SREG's place apart. -/
theorem cell_putData_of_ne {s : State} {a b : Nat} {v : Byte} (h : b ≠ a) :
    cell (putData s a v).data b = cell s.data b := by
  unfold putData
  split
  · rfl
  · exact cell_setCell_of_ne h v

end Sys2Proof.Machine
end

