-- ==== Sys2Proof/Machine/Transactions.lean ====
section
/-! DEFINITION. What the host can do to the core (70_reset_and_hazards.md R129): construction, the two loads, the step,
and the five read-only hooks, each one atomic transition with a result (R133; log entry 16). -/

namespace Sys2Proof.Machine

/-- The three results of the step transaction (R70): ok, or one of the two faults. -/
inductive StepResult where
  | ok
  | fault (f : Fault)
  deriving DecidableEq, Repr

/-- The step transaction whole: the result it returns and the state it leaves, after a fault too (R105). -/
def stepTransaction (s : State) : Except Refusal (State × StepResult) :=
  match step s with
  | .next t => .ok (t, .ok)
  | .fault f => .ok (takeFault s, .fault f)
  | .refused r => .error r

/-- `peek_register(index)` (R115): `x[i]` for 0 to 31; OutOfBounds for another index (R116, the spec's decision D11; log
entry 12). -/
def peekRegister (s : State) (i : Nat) : Except Fault Byte :=
  if i < 32 then dataRead s i else .error .outOfBounds

/-- `peek_data(address)` (R115): `DataRead(a)`, so SREG at SREG_ADDR (R20). -/
def peekData (s : State) (a : Nat) : Except Fault Byte := dataRead s a

/-- `peek_eeprom(address)` (R115). -/
def peekEeprom (s : State) (a : Nat) : Except Fault Byte := eepromRead s a

/-- `peek_flags()` (R115): the SREG byte. -/
def peekFlags (s : State) : Byte := s.sreg

/-- `program_counter()` (R115). -/
def programCounter (s : State) : Address := s.pc

/-- A core in the hands of its host. R127 makes the loads depend on whether a step has been requested, which is no state of
the core ("Nothing else is state"): it is kept beside it (log entry 9). -/
structure Session where
  core : State
  stepped : Bool
  deriving DecidableEq, Repr

/-- `new(capacity parameters)` (R120, R129). -/
def Session.new (c : Config) : Session where
  core := State.new c
  stepped := false

/-- The transactions of R129 on a constructed core. -/
inductive Request where
  | loadProgram (bytes : List Byte)
  | loadEeprom (bytes : List Byte)
  | step
  | peekRegister (i : Nat)
  | peekData (a : Nat)
  | peekEeprom (a : Nat)
  | peekFlags
  | programCounter
  deriving DecidableEq, Repr

/-- The results of R129. LoadError is a result of the load, not a step fault (R125). -/
inductive Response where
  | ok
  | loadError
  | fault (f : Fault)
  | byte (b : Byte)
  | address (a : Address)
  deriving DecidableEq, Repr

/-- The response to a hook that reads a byte (R115, R116). -/
def byteResponse (r : Except Fault Byte) : Response :=
  match r with
  | .ok b => .byte b
  | .error f => .fault f

/-- The response to a step (R70). -/
def stepResponse (r : StepResult) : Response :=
  match r with
  | .ok => .ok
  | .fault f => .fault f

/-- A load's transition: refused once a step has been requested (R127); LoadError leaves the core unchanged (R125). -/
def loadTransition (h : Session) (loaded : Option State) : Except Refusal (Session × Response) :=
  if h.stepped then .error .loadAfterStep
  else match loaded with
    | some t => .ok ({ h with core := t }, .ok)
    | none => .ok (h, .loadError)

/-- A step's transition: from now on a step has been requested, be it that it failed (R127). -/
def stepTransition (h : Session) : Except Refusal (Session × Response) :=
  match stepTransaction h.core with
  | .ok (t, r) => .ok ({ core := t, stepped := true }, stepResponse r)
  | .error r => .error r

/-- One transaction of the host (R129); none while a step is in flight. The hooks alter nothing (R115). -/
def transact (h : Session) (q : Request) : Except Refusal (Session × Response) :=
  match h.core.phase with
  | .executing => .error .requestInFlight
  | .idle =>
    match q with
    | .loadProgram bytes => loadTransition h (loadProgram h.core bytes)
    | .loadEeprom bytes => loadTransition h (loadEeprom h.core bytes)
    | .step => stepTransition h
    | .peekRegister i => .ok (h, byteResponse (peekRegister h.core i))
    | .peekData a => .ok (h, byteResponse (peekData h.core a))
    | .peekEeprom a => .ok (h, byteResponse (peekEeprom h.core a))
    | .peekFlags => .ok (h, .byte (peekFlags h.core))
    | .programCounter => .ok (h, .address (programCounter h.core))

end Sys2Proof.Machine
end

