-- ==== Sys2Proof/Safety.lean ====
section
/-! DEFINITION. What counts as a legal state and a legal run, in the terms the statements use. -/

namespace Sys2Proof.Machine

/-- The three stores are in canonical form, list only cells inside their capacity (R30), and the data store lists no cell
at SREG_ADDR, since SREG is held outside it (R20). -/
abbrev StoresWf (s : State) : Prop :=
  (Memory.Wf s.data ∧ Memory.Wf s.prog ∧ Memory.Wf s.eeprom) ∧
    (Memory.Within s.cfg.dataCapacity s.data ∧ Memory.Within s.cfg.progCapacity s.prog ∧
      Memory.Within s.cfg.eepromCapacity s.eeprom) ∧
    ∀ c ∈ s.data, c.1 ≠ s.cfg.sregAddr

/-- R15: the PC takes only values 0 to PROG_CAPACITY inclusive. -/
abbrev PcInRange (s : State) : Prop := s.pc.toNat ≤ s.cfg.progCapacity

/-- A legal state between two steps: a legal configuration (R4), legal stores, the PC in its range, the phase Idle (R25). -/
abbrev State.Wf (s : State) : Prop := s.cfg.Wf ∧ StoresWf s ∧ PcInRange s ∧ s.phase = .idle

/-- Sessions the host can bring about: a core constructed with legal parameters, then any transactions (R123, R129). -/
inductive Reachable : Session → Prop where
  | new (c : Config) (hc : c.Wf) : Reachable (Session.new c)
  | transact (h h' : Session) (q : Request) (r : Response) (hr : Reachable h)
      (ht : Sys2Proof.Machine.transact h q = .ok (h', r)) : Reachable h'

/-- Further transactions of the host from a session. -/
inductive Later (h : Session) : Session → Prop where
  | refl : Later h h
  | transact (h₁ h₂ : Session) (q : Request) (r : Response) (hl : Later h h₁)
      (ht : Sys2Proof.Machine.transact h₁ q = .ok (h₂, r)) : Later h h₂

/-- The states after `n` step transactions, whatever each returned (R108). -/
def afterSteps (n : Nat) (s : State) : Except Refusal State :=
  match n with
  | 0 => .ok s
  | n + 1 =>
    match stepTransaction s with
    | .ok (t, _) => afterSteps n t
    | .error r => .error r

end Sys2Proof.Machine
end

