-- ==== Sys2Proof/Laws/Step.lean ====
section
/-! SUPPORT. What a step can do, once. -/

namespace Sys2Proof.Machine

/-- Everything `step` can do. -/
theorem step_cases (s : State) :
    (s.phase = .executing ∧ step s = .refused .requestInFlight) ∨
    (s.phase = .idle ∧ s.cfg.progCapacity ≤ s.pc.toNat ∧ step s = .fault .outOfBounds) ∨
    (s.phase = .idle ∧ s.pc.toNat < s.cfg.progCapacity ∧
      decode s.cfg (cell s.prog s.pc.toNat) = .error .unknownOpcode ∧ step s = .fault .unknownOpcode) ∨
    (s.phase = .idle ∧ s.pc.toNat < s.cfg.progCapacity ∧
      ∃ i, decode s.cfg (cell s.prog s.pc.toNat) = .ok i ∧
        step s = returnToIdle (exec i { s with ir := cell s.prog s.pc.toNat, phase := .executing })) := by
  unfold step
  cases hp : s.phase with
  | executing => simp
  | idle =>
    by_cases h : s.pc.toNat < s.cfg.progCapacity
    · rw [fetch_of_lt h]
      cases hd : decode s.cfg (cell s.prog s.pc.toNat) with
      | error e => cases e; simp [decodeFetched, hd, h]
      | ok i => simp [decodeFetched, hd, h]
    · rw [fetch_of_ge (Nat.not_lt.1 h)]; simp; omega

/-- Everything `exec` can do on any instruction: complete, or OutOfBounds. -/
theorem exec_cases (i : Instr) (s : State) :
    (∃ t, exec i s = .next t) ∨ exec i s = .fault .outOfBounds := by
  cases i with
  | adiw p k => exact (execWI_cases addW p k s).imp (fun ⟨_, _, _, _, h⟩ => ⟨_, h⟩) fun h => h.2
  | add d r => exact (execRR_cases _ d r s).imp (fun ⟨_, _, _, _, h⟩ => ⟨_, h⟩) fun h => h.2
  | adc d r => exact (execRR_cases _ d r s).imp (fun ⟨_, _, _, _, h⟩ => ⟨_, h⟩) fun h => h.2
  | and d r => exact (execRR_cases _ d r s).imp (fun ⟨_, _, _, _, h⟩ => ⟨_, h⟩) fun h => h.2

/-- The pure function a two-register instruction plugs into format RR (R74); ADIW is of the other format and its
line is not used. -/
def rrAlu (i : Instr) : Byte → Byte → Byte → Byte × Byte :=
  match i with
  | .adiw _ _ => and8
  | .add _ _ => fun vd vr sreg => add8 vd vr false sreg
  | .adc _ _ => fun vd vr sreg => add8 vd vr (flag .c sreg) sreg
  | .and _ _ => and8

/-- A completed instruction left the completed state of its format. -/
theorem exec_next {i : Instr} {s t : State} (h : exec i s = .next t) :
    (∃ (p : RegIdx) (k : BitVec 6) (lo hi : Byte), i = .adiw p k ∧ dataRead s p.toNat = .ok lo ∧
      dataRead s (p.toNat + 1) = .ok hi ∧ t = wiState addW p k (hi ++ lo) s) ∨
    (∃ (d r : RegIdx) (vd vr : Byte), (i = .add d r ∨ i = .adc d r ∨ i = .and d r) ∧ dataRead s d.toNat = .ok vd ∧
      dataRead s r.toNat = .ok vr ∧ t = rrState (rrAlu i) d vd vr s) := by
  cases i with
  | adiw p k => obtain ⟨lo, hi, hl, hh, ht⟩ := execWI_next h; exact .inl ⟨p, k, lo, hi, rfl, hl, hh, ht⟩
  | add d r => obtain ⟨vd, vr, hd, hr, ht⟩ := execRR_next h; exact .inr ⟨d, r, vd, vr, by simp, hd, hr, ht⟩
  | adc d r => obtain ⟨vd, vr, hd, hr, ht⟩ := execRR_next h; exact .inr ⟨d, r, vd, vr, by simp, hd, hr, ht⟩
  | and d r => obtain ⟨vd, vr, hd, hr, ht⟩ := execRR_next h; exact .inr ⟨d, r, vd, vr, by simp, hd, hr, ht⟩

/-- What a completed instruction does to the fields no instruction computes. -/
theorem exec_next_fields {i : Instr} {s t : State} (h : exec i s = .next t) :
    t.cfg = s.cfg ∧ t.prog = s.prog ∧ t.eeprom = s.eeprom ∧ t.ir = s.ir ∧ t.phase = s.phase ∧ t.pc = s.pc + 1#16 := by
  rcases exec_next h with ⟨p, k, lo, hi, rfl, -, -, rfl⟩ | ⟨d, r, vd, vr, -, -, -, rfl⟩ <;> simp

/-- A step that completes ran the instruction its word decodes to. -/
theorem step_next {s t : State} (h : step s = .next t) :
    s.phase = .idle ∧ s.pc.toNat < s.cfg.progCapacity ∧
      ∃ i u, decode s.cfg (cell s.prog s.pc.toNat) = .ok i ∧
        exec i { s with ir := cell s.prog s.pc.toNat, phase := .executing } = .next u ∧ t = { u with phase := .idle } := by
  rcases step_cases s with ⟨-, he⟩ | ⟨-, -, he⟩ | ⟨-, -, -, he⟩ | ⟨hp, hc, i, hd, he⟩
  · rw [he] at h; cases h
  · rw [he] at h; cases h
  · rw [he] at h; cases h
  · refine ⟨hp, hc, i, ?_⟩
    rw [he] at h
    rcases exec_cases i { s with ir := cell s.prog s.pc.toNat, phase := .executing } with ⟨u, hu⟩ | hu
    · rw [hu] at h; cases h; exact ⟨u, hd, hu, rfl⟩
    · rw [hu] at h; cases h

/-- Everything the step transaction can do: only in Idle, the step's next state with ok, or its fault with `takeFault`. -/
theorem stepTransaction_ok {s t : State} {res : StepResult} (h : stepTransaction s = .ok (t, res)) :
    s.phase = .idle ∧
      ((step s = .next t ∧ res = .ok) ∨ ∃ f, step s = .fault f ∧ res = .fault f ∧ t = takeFault s) := by
  have hp : s.phase = .idle := by
    rcases step_cases s with ⟨-, he⟩ | ⟨hp, -⟩ | ⟨hp, -⟩ | ⟨hp, -⟩
    · simp [stepTransaction, he] at h
    all_goals exact hp
  refine ⟨hp, ?_⟩
  unfold stepTransaction at h
  split at h
  · cases h; exact .inl ⟨by assumption, rfl⟩
  · cases h; exact .inr ⟨_, by assumption, rfl, rfl⟩
  · cases h

/-! ### The stores stay well-formed under every operation on them -/

theorem putData_storesWf {s : State} (h : StoresWf s) {a : Nat} (ha : a < s.cfg.dataCapacity) (v : Byte) :
    StoresWf (putData s a v) := by
  obtain ⟨⟨hd, hp, he⟩, ⟨bd, bp, be⟩, hn⟩ := h
  by_cases hs : a = s.cfg.sregAddr
  · rw [show putData s a v = { s with sreg := v } by simp [putData, hs]]
    exact ⟨⟨hd, hp, he⟩, ⟨bd, bp, be⟩, hn⟩
  · refine ⟨⟨?_, by simpa using hp, by simpa using he⟩, ⟨?_, by simpa using bp, by simpa using be⟩, ?_⟩
    · rw [putData_data_of_ne _ _ _ hs]; exact setCell_wf hd a v
    · rw [putData_data_of_ne _ _ _ hs, putData_cfg]; exact setCell_within bd ha v
    · rw [putData_data_of_ne _ _ _ hs, putData_cfg]
      intro c hc
      rcases mem_setCell hc with rfl | hc
      · exact hs
      · exact hn c hc

theorem dataWrite_storesWf {s t : State} (h : StoresWf s) {a : Nat} {v : Byte} (hw : dataWrite s a v = .ok t) :
    StoresWf t := by
  unfold dataWrite at hw
  split at hw
  · cases hw; exact putData_storesWf h (by assumption) v
  · cases hw

theorem loadProgram_storesWf {s t : State} (h : StoresWf s) {bytes : List Byte} (hl : loadProgram s bytes = some t) :
    StoresWf t := by
  unfold loadProgram at hl
  split at hl
  · cases hl
  · cases hl
    refine ⟨⟨h.1.1, imageCells_wf 0 bytes, h.1.2.2⟩, ⟨h.2.1.1, fun c hc => ?_, h.2.1.2.2⟩, h.2.2⟩
    have := imageCells_lt 0 bytes c hc
    simp only
    omega

theorem loadEeprom_storesWf {s t : State} (h : StoresWf s) {bytes : List Byte} (hl : loadEeprom s bytes = some t) :
    StoresWf t := by
  unfold loadEeprom at hl
  split at hl
  · cases hl
  · cases hl
    refine ⟨⟨h.1.1, h.1.2.1, byteCells_wf 0 bytes⟩, ⟨h.2.1.1, h.2.1.2.1, fun c hc => ?_⟩, h.2.2⟩
    have := byteCells_range 0 bytes c hc
    simp only
    omega

/-- Placing a word where the next step fetches keeps the stores well-formed. -/
theorem withFetchWord_storesWf {s : State} (h : StoresWf s) (hl : s.pc.toNat < s.cfg.progCapacity) (n w : Nat) :
    StoresWf (s.withFetchWord n w) :=
  ⟨⟨h.1.1, setCell_wf h.1.2.1 _ _, h.1.2.2⟩, ⟨h.2.1.1, setCell_within h.2.1.2.1 hl _, h.2.1.2.2⟩, h.2.2⟩

end Sys2Proof.Machine
end

