-- ==== Sys2Proof/Certificates/Slice0/Obligations.lean ====
section
/-! DEFINITION. The statements for the provers. Each docstring names the rule or section of spec/ it formalises; where a
clause is the spec's own decision or inference it says so. Words used below: a register `x[i]` is `DataRead(i)` (R11), and
SREG's bits are numbered as R17 numbers them (C Z N V S H T I at 0 to 7). -/

open Sys2Proof Sys2Proof.Machine

namespace Sys2Proof.Statements

/-- The formulas of R85 for a result `res` and a new status byte `new`, from the operands, the carry-in and the old status
byte. -/
def Add8Formulas (vd vr : Byte) (cin : Bool) (old res new : Byte) : Prop :=
  res.toNat = (vd.toNat + vr.toNat + cin.toNat) % 256 ∧
  new.getLsbD 0 = (vd.getLsbD 7 && vr.getLsbD 7 || !res.getLsbD 7 && (vr.getLsbD 7 || vd.getLsbD 7)) ∧
  new.getLsbD 1 = decide (res.toNat = 0) ∧
  new.getLsbD 2 = res.getLsbD 7 ∧
  new.getLsbD 3 = (vd.getLsbD 7 && vr.getLsbD 7 && !res.getLsbD 7 || !vd.getLsbD 7 && !vr.getLsbD 7 && res.getLsbD 7) ∧
  new.getLsbD 4 = (new.getLsbD 2 ^^ new.getLsbD 3) ∧
  new.getLsbD 5 = (vd.getLsbD 3 && vr.getLsbD 3 || !res.getLsbD 3 && (vr.getLsbD 3 || vd.getLsbD 3)) ∧
  new.getLsbD 6 = old.getLsbD 6 ∧ new.getLsbD 7 = old.getLsbD 7

/-- The formulas of R90 for a 16-bit result and a new status byte. -/
def AddWFormulas (vd : Word) (k : BitVec 6) (old : Byte) (res : Word) (new : Byte) : Prop :=
  res.toNat = (vd.toNat + k.toNat) % 65536 ∧
  new.getLsbD 0 = (!res.getLsbD 15 && vd.getLsbD 15) ∧
  new.getLsbD 1 = decide (res.toNat = 0) ∧
  new.getLsbD 2 = res.getLsbD 15 ∧
  new.getLsbD 3 = (!vd.getLsbD 15 && res.getLsbD 15) ∧
  new.getLsbD 4 = (new.getLsbD 2 ^^ new.getLsbD 3) ∧
  new.getLsbD 5 = old.getLsbD 5 ∧ new.getLsbD 6 = old.getLsbD 6 ∧ new.getLsbD 7 = old.getLsbD 7

/-- The formulas of R95 for a result and a new status byte. -/
def And8Formulas (vd vr old res new : Byte) : Prop :=
  (∀ j < 8, res.getLsbD j = (vd.getLsbD j && vr.getLsbD j)) ∧
  new.getLsbD 0 = old.getLsbD 0 ∧
  new.getLsbD 1 = decide (res.toNat = 0) ∧
  new.getLsbD 2 = res.getLsbD 7 ∧
  new.getLsbD 3 = false ∧
  new.getLsbD 4 = (new.getLsbD 2 ^^ new.getLsbD 3) ∧
  new.getLsbD 5 = old.getLsbD 5 ∧ new.getLsbD 6 = old.getLsbD 6 ∧ new.getLsbD 7 = old.getLsbD 7

/-- The register indices an instruction reads or writes (R12): its operand addresses (R76). -/
def operandAddresses (i : Instr) : List Nat :=
  match i with
  | .adiw p _ => [p.toNat, p.toNat + 1]
  | .add d r => [d.toNat, r.toNat]
  | .adc d r => [d.toNat, r.toNat]
  | .and d r => [d.toNat, r.toNat]

/-- The SREG bits an instruction writes (the flag lists of R86, R87, R90, R95). -/
def flagsWritten (i : Instr) : List Nat :=
  match i with
  | .adiw _ _ => [0, 1, 2, 3, 4]
  | .add _ _ => [0, 1, 2, 3, 4, 5]
  | .adc _ _ => [0, 1, 2, 3, 4, 5]
  | .and _ _ => [1, 2, 3, 4]

/-- The instruction reads the flag C: ADC only (R17). -/
def readsCarry (i : Instr) : Bool :=
  match i with
  | .adiw _ _ => false
  | .add _ _ => false
  | .adc _ _ => true
  | .and _ _ => false

/-- A legal core, T and I 0, S = N xor V, every data cell at 32 or above 0 but for SREG's place: what construction
establishes and every transaction of the host keeps. -/
def QuietSession (h : Session) : Prop :=
  h.core.Wf ∧ h.core.sreg.getLsbD 6 = false ∧ h.core.sreg.getLsbD 7 = false ∧
  h.core.sreg.getLsbD 4 = (h.core.sreg.getLsbD 2 ^^ h.core.sreg.getLsbD 3) ∧
  ∀ a, 32 ≤ a → a < h.core.cfg.dataCapacity → a ≠ h.core.cfg.sregAddr → dataRead h.core a = .ok 0

end Sys2Proof.Statements

open Sys2Proof.Statements

/-! ### Encoding and decoding (30_encoding.md) -/

/-- Words of 95_test_vectors.md section 2.1 decode to the instructions they stand for, and words outside the catalogue are
rejected (R58, R59), under the default opcodes, which are the spec's decision D2 (log entry 4). -/
def Obligations.DecodeWordsOfTheSpec : Prop :=
  decode Config.default 0x0F01#16 = .ok (.add 16 17) ∧ decode Config.default 0x0E8F#16 = .ok (.add 8 31) ∧
  decode Config.default 0x0D0F#16 = .ok (.add 16 15) ∧ decode Config.default 0x1F19#16 = .ok (.adc 17 25) ∧
  decode Config.default 0x2011#16 = .ok (.and 1 1) ∧ decode Config.default 0x2301#16 = .ok (.and 16 17) ∧
  decode Config.default 0x9631#16 = .ok (.adiw 30 1) ∧ decode Config.default 0x9640#16 = .ok (.adiw 24 16) ∧
  decode Config.default 0x9680#16 = .ok (.adiw 24 32) ∧ decode Config.default 0x96CF#16 = .ok (.adiw 24 63) ∧
  decode Config.default 0x0000#16 = .error .unknownOpcode ∧ decode Config.default 0x0BFF#16 = .error .unknownOpcode ∧
  decode Config.default 0x9700#16 = .error .unknownOpcode ∧ decode Config.default 0xFFFF#16 = .error .unknownOpcode

/-- The operand fields of every word that decodes to format RR, in every configuration: d is bits 8:4, r is bit 9 above
bits 3:0 (R53); and every one of the 32 x 32 pairs has such a word with the opcode OPC_ADD, OPC_ADC or OPC_AND in bits
15:10, whenever OPC_ADIW does not share its leading bits. -/
def Obligations.TwoRegisterOperandFields : Prop :=
  (∀ (c : Config) (w : Word) (d r : RegIdx),
    (decode c w = .ok (.add d r) ∨ decode c w = .ok (.adc d r) ∨ decode c w = .ok (.and d r)) →
      d.toNat = w.toNat / 16 % 32 ∧ r.toNat = 16 * (w.toNat / 512 % 2) + w.toNat % 16) ∧
  ∀ (c : Config) (d r : RegIdx), c.Wf → (∀ o ∈ [c.opcAdd, c.opcAdc, c.opcAnd], c.opcAdiw.toNat / 4 ≠ o.toNat) →
    ∃ w₁ w₂ w₃ : Word, decode c w₁ = .ok (.add d r) ∧ decode c w₂ = .ok (.adc d r) ∧ decode c w₃ = .ok (.and d r) ∧
      w₁.toNat / 1024 = c.opcAdd.toNat ∧ w₂.toNat / 1024 = c.opcAdc.toNat ∧ w₃.toNat / 1024 = c.opcAnd.toNat

/-- The operand fields of every word that decodes to ADIW (30_encoding.md section 3; the field places are the spec's
decision D3, log entry 4): the low register is 24 + 2 * bits 5:4 and K is bits 7:6 above bits 3:0. -/
def Obligations.WideImmediateOperandFields : Prop :=
  ∀ (c : Config) (w : Word) (p : RegIdx) (k : BitVec 6), decode c w = .ok (.adiw p k) →
    p.toNat = 24 + 2 * (w.toNat / 16 % 4) ∧ k.toNat = 16 * (w.toNat / 64 % 4) + w.toNat % 16 ∧
      w.toNat / 256 = c.opcAdiw.toNat

/-- In every configuration a word whose bits 15:8 are OPC_ADIW decodes to ADIW, even where its bits 15:10 equal a 6-bit
opcode: the more specific entry wins (30_encoding.md section 4, matching discipline). Any other word decodes by its bits
15:10 alone, and is unknown exactly when they are none of the three 6-bit opcodes. -/
def Obligations.MostSpecificEntryWins : Prop :=
  ∀ (c : Config) (w : Word), c.Wf →
    (w.toNat / 256 = c.opcAdiw.toNat → ∃ p k, decode c w = .ok (.adiw p k)) ∧
    (w.toNat / 256 ≠ c.opcAdiw.toNat →
      (w.toNat / 1024 = c.opcAdd.toNat → ∃ d r, decode c w = .ok (.add d r)) ∧
      (w.toNat / 1024 = c.opcAdc.toNat → ∃ d r, decode c w = .ok (.adc d r)) ∧
      (w.toNat / 1024 = c.opcAnd.toNat → ∃ d r, decode c w = .ok (.and d r)) ∧
      ((w.toNat / 1024 ≠ c.opcAdd.toNat ∧ w.toNat / 1024 ≠ c.opcAdc.toNat ∧ w.toNat / 1024 ≠ c.opcAnd.toNat) →
        decode c w = .error .unknownOpcode))

/-- The word ranges of the catalogue under the default opcodes (30_encoding.md section 4, the census, an inference the spec
marks; default opcodes by its decision D2, log entry 4): every other word is UnknownOpcode. -/
def Obligations.DefaultCatalogueRanges : Prop :=
  ∀ w : Word,
    ((∃ d r, decode Config.default w = .ok (.add d r)) ↔ 0x0C00 ≤ w.toNat ∧ w.toNat ≤ 0x0FFF) ∧
    ((∃ d r, decode Config.default w = .ok (.adc d r)) ↔ 0x1C00 ≤ w.toNat ∧ w.toNat ≤ 0x1FFF) ∧
    ((∃ d r, decode Config.default w = .ok (.and d r)) ↔ 0x2000 ≤ w.toNat ∧ w.toNat ≤ 0x23FF) ∧
    ((∃ p k, decode Config.default w = .ok (.adiw p k)) ↔ 0x9600 ≤ w.toNat ∧ w.toNat ≤ 0x96FF) ∧
    (decode Config.default w = .error .unknownOpcode ↔
      (w.toNat < 0x0C00 ∨ 0x0FFF < w.toNat) ∧ (w.toNat < 0x1C00 ∨ 0x1FFF < w.toNat) ∧
      (w.toNat < 0x2000 ∨ 0x23FF < w.toNat) ∧ (w.toNat < 0x9600 ∨ 0x96FF < w.toNat))

/-- Decode of encode is the instruction, for every well-formed instruction with every operand value, in every legal
configuration whose OPC_ADIW shares its leading bits with no 6-bit opcode; for ADIW in every configuration at all
(30_encoding.md section 5, the encoder, an inference the spec marks). -/
def Obligations.DecodeOfEncodeIsTheInstruction : Prop :=
  ∀ (c : Config) (i : Instr), i.Wf →
    ((∃ p k, i = .adiw p k) ∨
      (c.Wf ∧ ∀ o ∈ [c.opcAdd, c.opcAdc, c.opcAnd], c.opcAdiw.toNat / 4 ≠ o.toNat)) →
    decode c (encode c i) = .ok i

/-- Every word that decodes is the encoding of the instruction it decodes to, which is well-formed: no word decodes to two
instructions and none loses a bit (30_encoding.md sections 4 and 5). -/
def Obligations.EncodeOfDecodeIsTheWord : Prop :=
  ∀ (c : Config) (w : Word) (i : Instr), decode c w = .ok i → i.Wf ∧ encode c i = w

/-! ### The four instructions (41_add.md, 42_adiw.md, 43_and.md) -/

/-- ADD Rd, Rr (R86): with both registers readable it completes with the sum, the flags of R85 for carry-in 0, and the PC
advanced; with an index outside the data store it is OutOfBounds; and its word is `0000 11rd dddd rrrr`. The rule's corner
cases are values of the formulas. The opcode in the encoding clause is the one R86 gives, the spec's decision D2. -/
def Obligations.AddFollowsItsRule : Prop :=
  (∀ (s : State) (d r : RegIdx) (vd vr : Byte), s.cfg.Wf → StoresWf s →
    dataRead s d.toNat = .ok vd → dataRead s r.toNat = .ok vr →
    ∃ t res, exec (.add d r) s = .next t ∧ dataRead t d.toNat = .ok res ∧
      Add8Formulas vd vr false s.sreg res t.sreg ∧ t.pc = s.pc + 1) ∧
  (∀ (s : State) (d r : RegIdx), s.cfg.dataCapacity ≤ d.toNat ∨ s.cfg.dataCapacity ≤ r.toNat →
    exec (.add d r) s = .fault .outOfBounds) ∧
  ∀ d r : RegIdx,
    decode Config.default (0b000011#6 ++ r.extractLsb' 4 1 ++ d ++ r.extractLsb' 0 4) = .ok (.add d r)

/-- ADC Rd, Rr (R87): as ADD with the carry-in SREG.C as the previous step left it, and its word is `0001 11rd dddd rrrr`.
The opcode in the encoding clause is the one R87 gives, the spec's decision D2. -/
def Obligations.AdcFollowsItsRule : Prop :=
  (∀ (s : State) (d r : RegIdx) (vd vr : Byte), s.cfg.Wf → StoresWf s →
    dataRead s d.toNat = .ok vd → dataRead s r.toNat = .ok vr →
    ∃ t res, exec (.adc d r) s = .next t ∧ dataRead t d.toNat = .ok res ∧
      Add8Formulas vd vr (s.sreg.getLsbD 0) s.sreg res t.sreg ∧ t.pc = s.pc + 1) ∧
  (∀ (s : State) (d r : RegIdx), s.cfg.dataCapacity ≤ d.toNat ∨ s.cfg.dataCapacity ≤ r.toNat →
    exec (.adc d r) s = .fault .outOfBounds) ∧
  ∀ d r : RegIdx,
    decode Config.default (0b000111#6 ++ r.extractLsb' 4 1 ++ d ++ r.extractLsb' 0 4) = .ok (.adc d r)

/-- ADIW Rp, K (R90): on each of the four pairs, low byte in the even register, it completes with the 16-bit sum in both
registers, the flags of the 16-bit values, H, T and I kept, and the PC advanced; with the high register outside the data
store it is OutOfBounds, and the step leaves both bytes and SREG as they were, even where the low register is inside; and
its word is `1001 0110 KKpp KKKK`, with the field places of the spec's decision D3. -/
def Obligations.AdiwFollowsItsRule : Prop :=
  (∀ (s : State) (p : RegIdx) (k : BitVec 6) (lo hi : Byte), s.cfg.Wf → StoresWf s → IsPairLow p →
    dataRead s p.toNat = .ok lo → dataRead s (p.toNat + 1) = .ok hi →
    ∃ t res, exec (.adiw p k) s = .next t ∧
      dataRead t p.toNat = .ok (res.extractLsb' 0 8) ∧ dataRead t (p.toNat + 1) = .ok (res.extractLsb' 8 8) ∧
      AddWFormulas (hi ++ lo) k s.sreg res t.sreg ∧ t.pc = s.pc + 1) ∧
  (∀ (s : State) (p : RegIdx) (k : BitVec 6), s.cfg.dataCapacity ≤ p.toNat + 1 →
    exec (.adiw p k) s = .fault .outOfBounds) ∧
  (∀ (s : State) (w : Word) (p : RegIdx) (k : BitVec 6), s.phase = .idle → progRead s s.pc.toNat = .ok w →
    decode s.cfg w = .ok (.adiw p k) → s.cfg.dataCapacity ≤ p.toNat + 1 →
    stepTransaction s = .ok ({ s with ir := w }, .fault .outOfBounds)) ∧
  ∀ (q : BitVec 2) (k : BitVec 6),
    decode Config.default (0b10010110#8 ++ k.extractLsb' 4 2 ++ q ++ k.extractLsb' 0 4) =
      .ok (.adiw (BitVec.ofNat 5 (24 + 2 * q.toNat)) k)

/-- AND Rd, Rr (R95): with both registers readable it completes with the bitwise AND, Z, N, V = 0 and S = N, C, H, T and I
kept, and the PC advanced; with an index outside the data store it is OutOfBounds; and its word is `0010 00rd dddd rrrr`. -/
def Obligations.AndFollowsItsRule : Prop :=
  (∀ (s : State) (d r : RegIdx) (vd vr : Byte), s.cfg.Wf → StoresWf s →
    dataRead s d.toNat = .ok vd → dataRead s r.toNat = .ok vr →
    ∃ t res, exec (.and d r) s = .next t ∧ dataRead t d.toNat = .ok res ∧
      And8Formulas vd vr s.sreg res t.sreg ∧ t.pc = s.pc + 1) ∧
  (∀ (s : State) (d r : RegIdx), s.cfg.dataCapacity ≤ d.toNat ∨ s.cfg.dataCapacity ≤ r.toNat →
    exec (.and d r) s = .fault .outOfBounds) ∧
  ∀ d r : RegIdx,
    decode Config.default (0b001000#6 ++ r.extractLsb' 4 1 ++ d ++ r.extractLsb' 0 4) = .ok (.and d r)

/-- The laws of the 8-bit additions (41_add.md section 4, inferences the spec marks): after ADD (carry-in 0) and ADC
(carry-in SREG.C) the flags are facts about the exact sum: C unsigned overflow, H carry out of bit 3, V signed overflow, S
the sign of the true sum, N and Z of the result; the result is modular. -/
def Obligations.AddFlagsDescribeTheExactSum : Prop :=
  ∀ (s : State) (d r : RegIdx) (vd vr : Byte) (i : Instr) (cin : Nat), s.cfg.Wf → StoresWf s →
    dataRead s d.toNat = .ok vd → dataRead s r.toNat = .ok vr →
    (i = .add d r ∧ cin = 0 ∨ i = .adc d r ∧ cin = s.sreg.toNat % 2) →
    ∃ t res, exec i s = .next t ∧ dataRead t d.toNat = .ok res ∧
      res.toNat = (vd.toNat + vr.toNat + cin) % 256 ∧
      (t.sreg.getLsbD 0 = true ↔ 256 ≤ vd.toNat + vr.toNat + cin) ∧
      (t.sreg.getLsbD 5 = true ↔ 16 ≤ vd.toNat % 16 + vr.toNat % 16 + cin) ∧
      (t.sreg.getLsbD 3 = true ↔ vd.toInt + vr.toInt + cin < -128 ∨ 127 < vd.toInt + vr.toInt + cin) ∧
      (t.sreg.getLsbD 3 = true ↔ vd.msb = vr.msb ∧ res.msb ≠ vd.msb) ∧
      (t.sreg.getLsbD 4 = true ↔ vd.toInt + vr.toInt + cin < 0) ∧
      (t.sreg.getLsbD 2 = true ↔ 128 ≤ res.toNat) ∧ (t.sreg.getLsbD 1 = true ↔ res.toNat = 0)

/-- The laws of ADIW (42_adiw.md, laws, inferences the spec marks): C, V and S are facts about the exact 16-bit sum, the
result is modular, and the two registers hold what an 8-bit add of K to the low one and of its carry to the high one give. -/
def Obligations.AdiwFlagsDescribeTheExactSum : Prop :=
  ∀ (s : State) (p : RegIdx) (k : BitVec 6) (lo hi : Byte), s.cfg.Wf → StoresWf s → IsPairLow p →
    dataRead s p.toNat = .ok lo → dataRead s (p.toNat + 1) = .ok hi →
    ∃ (t : State) (lo' hi' : Byte), exec (.adiw p k) s = .next t ∧
      dataRead t p.toNat = .ok lo' ∧ dataRead t (p.toNat + 1) = .ok hi' ∧
      (hi' ++ lo').toNat = ((hi ++ lo).toNat + k.toNat) % 65536 ∧
      (t.sreg.getLsbD 0 = true ↔ 65536 ≤ (hi ++ lo).toNat + k.toNat) ∧
      (t.sreg.getLsbD 3 = true ↔ 32767 < (hi ++ lo).toInt + k.toNat) ∧
      (t.sreg.getLsbD 4 = true ↔ (hi ++ lo).toInt + k.toNat < 0) ∧
      lo'.toNat = (lo.toNat + k.toNat) % 256 ∧ hi'.toNat = (hi.toNat + (lo.toNat + k.toNat) / 256) % 256

/-- The laws of AND (43_and.md, laws, inferences the spec marks): the result is at most either operand; it is commutative in
result and flags; executed twice in a row it leaves the same registers and flags as once; afterwards V = 0 and S = N. -/
def Obligations.AndIsBoundedCommutativeIdempotent : Prop :=
  ∀ (s : State) (d r : RegIdx) (vd vr : Byte), s.cfg.Wf → StoresWf s →
    dataRead s d.toNat = .ok vd → dataRead s r.toNat = .ok vr →
    ∃ t u res, exec (.and d r) s = .next t ∧ exec (.and r d) s = .next u ∧
      dataRead t d.toNat = .ok res ∧ dataRead u r.toNat = .ok res ∧ u.sreg = t.sreg ∧
      res.toNat ≤ vd.toNat ∧ res.toNat ≤ vr.toNat ∧
      t.sreg.getLsbD 3 = false ∧ t.sreg.getLsbD 4 = t.sreg.getLsbD 2 ∧
      exec (.and d r) t = .next { t with pc := t.pc + 1 }

/-- ADD on the low bytes and then ADC on the high bytes is a 16-bit addition, with C, N, V and S those of the 16-bit sum:
a carry is visible to the very next instruction (70_reset_and_hazards.md section 5; 41_add.md). The low destination must
not be a high operand. -/
def Obligations.AddThenAdcAddsSixteenBits : Prop :=
  ∀ (s : State) (dl rl dh rh : RegIdx) (al bl ah bh : Byte), s.cfg.Wf → StoresWf s → dl ≠ dh → dl ≠ rh →
    dataRead s dl.toNat = .ok al → dataRead s rl.toNat = .ok bl →
    dataRead s dh.toNat = .ok ah → dataRead s rh.toNat = .ok bh →
    ∃ (t u : State) (lo hi : Byte), exec (.add dl rl) s = .next t ∧ exec (.adc dh rh) t = .next u ∧
      dataRead u dl.toNat = .ok lo ∧ dataRead u dh.toNat = .ok hi ∧
      (hi ++ lo).toNat = ((ah ++ al).toNat + (bh ++ bl).toNat) % 65536 ∧
      (u.sreg.getLsbD 0 = true ↔ 65536 ≤ (ah ++ al).toNat + (bh ++ bl).toNat) ∧
      u.sreg.getLsbD 2 = (hi ++ lo).msb ∧
      (u.sreg.getLsbD 3 = true ↔
        (ah ++ al).toInt + (bh ++ bl).toInt < -32768 ∨ 32767 < (ah ++ al).toInt + (bh ++ bl).toInt) ∧
      (u.sreg.getLsbD 4 = true ↔ (ah ++ al).toInt + (bh ++ bl).toInt < 0)

/-- An instruction whose source is its destination uses the old value for both operands (70_reset_and_hazards.md section 5;
30_encoding.md section 5, the spellings LSL, ROL and TST): ADD shifts left by one (41_add.md section 2), ADC rotates left
through C (41_add.md section 3), AND keeps the register with Z, N and V reporting on it (43_and.md); C of the two additions
is the old bit 7 and H the old bit 3 (by the formulas of 41_add.md section 1). -/
def Obligations.SameRegisterForms : Prop :=
  ∀ (s : State) (d : RegIdx) (v : Byte), s.cfg.Wf → StoresWf s → dataRead s d.toNat = .ok v →
    (∃ t res, exec (.add d d) s = .next t ∧ dataRead t d.toNat = .ok res ∧ res.toNat = 2 * v.toNat % 256 ∧
      t.sreg.getLsbD 0 = v.getLsbD 7 ∧ t.sreg.getLsbD 5 = v.getLsbD 3) ∧
    (∃ t res, exec (.adc d d) s = .next t ∧ dataRead t d.toNat = .ok res ∧
      res.toNat = (2 * v.toNat + s.sreg.toNat % 2) % 256 ∧
      t.sreg.getLsbD 0 = v.getLsbD 7 ∧ t.sreg.getLsbD 5 = v.getLsbD 3) ∧
    ∃ t, exec (.and d d) s = .next t ∧ dataRead t d.toNat = .ok v ∧
      t.sreg.getLsbD 1 = decide (v.toNat = 0) ∧ t.sreg.getLsbD 2 = v.getLsbD 7 ∧ t.sreg.getLsbD 3 = false

/-- With C clear ADC equals ADD bit for bit, in every state (41_add.md section 3, an inference the spec marks). -/
def Obligations.AdcWithCarryClearIsAdd : Prop :=
  ∀ (s : State) (d r : RegIdx), s.sreg.getLsbD 0 = false → exec (.adc d r) s = exec (.add d r) s

/-- Only ADC reads a flag, and only C (10_state.md section 4): with any other status byte in place of SREG (for ADC one
with the same C) an instruction completes with the same registers, the same PC and the same written flags. -/
def Obligations.OnlyAdcReadsTheCarry : Prop :=
  ∀ (s t : State) (i : Instr) (sreg : Byte), s.cfg.Wf → i.Wf →
    (readsCarry i = true → sreg.getLsbD 0 = s.sreg.getLsbD 0) → exec i s = .next t →
    ∃ u, exec i { s with sreg := sreg } = .next u ∧ u.data = t.data ∧ u.pc = t.pc ∧
      ∀ b ∈ flagsWritten i, u.sreg.getLsbD b = t.sreg.getLsbD b

/-! ### Frames -/

/-- What ADD, ADC and AND leave unchanged when they complete (10_state.md sections 1 and 4; R12, R19): every data byte but
`x[d]` and SREG's own place, T and I (for AND also C and H), the IR, the phase, the configuration, PROG and EEPROM. -/
def Obligations.TwoRegisterFrame : Prop :=
  ∀ (s t : State) (i : Instr) (d r : RegIdx), i = .add d r ∨ i = .adc d r ∨ i = .and d r → exec i s = .next t →
    (∀ a, a ≠ d.toNat → a ≠ s.cfg.sregAddr → dataRead t a = dataRead s a) ∧
    t.sreg.getLsbD 6 = s.sreg.getLsbD 6 ∧ t.sreg.getLsbD 7 = s.sreg.getLsbD 7 ∧
    (i = .and d r → t.sreg.getLsbD 0 = s.sreg.getLsbD 0 ∧ t.sreg.getLsbD 5 = s.sreg.getLsbD 5) ∧
    t.ir = s.ir ∧ t.phase = s.phase ∧ t.cfg = s.cfg ∧
    (∀ a, progRead t a = progRead s a) ∧ ∀ a, eepromRead t a = eepromRead s a

/-- What ADIW leaves unchanged when it completes: every data byte but the pair's two and SREG's own place, H, T and I, the
IR, the phase, the configuration, PROG and EEPROM (42_adiw.md; "Only affects the destination pair's two bytes"). -/
def Obligations.AdiwFrame : Prop :=
  ∀ (s t : State) (p : RegIdx) (k : BitVec 6), exec (.adiw p k) s = .next t →
    (∀ a, a ≠ p.toNat → a ≠ p.toNat + 1 → a ≠ s.cfg.sregAddr → dataRead t a = dataRead s a) ∧
    t.sreg.getLsbD 5 = s.sreg.getLsbD 5 ∧ t.sreg.getLsbD 6 = s.sreg.getLsbD 6 ∧ t.sreg.getLsbD 7 = s.sreg.getLsbD 7 ∧
    t.ir = s.ir ∧ t.phase = s.phase ∧ t.cfg = s.cfg ∧
    (∀ a, progRead t a = progRead s a) ∧ ∀ a, eepromRead t a = eepromRead s a

/-- The update discipline of 10_state.md section 4, "exactly the bits documented for a given instruction are modified; all
others are preserved": every SREG bit outside the instruction's list keeps its value, and every bit in the list is modified
by that instruction in some state. -/
def Obligations.ExactlyTheListedFlagsAreModified : Prop :=
  (∀ (s t : State) (i : Instr), exec i s = .next t →
    ∀ b < 8, b ∉ flagsWritten i → t.sreg.getLsbD b = s.sreg.getLsbD b) ∧
  ∀ (i : Instr), i.Wf → ∀ b ∈ flagsWritten i,
    ∃ s t : State, exec i s = .next t ∧ t.sreg.getLsbD b ≠ s.sreg.getLsbD b

/-! ### The step (40_step_cycle.md) and its faults (60_exceptions.md) -/

/-- The execute fault (40_step_cycle.md section 1; small data stores are the spec's decision D18, log entry 17): an
instruction answers OutOfBounds exactly when one of its operand addresses is outside the data store, and otherwise
completes; it has no other fault and no refusal. -/
def Obligations.ExecuteFaultsExactlyWhenAnOperandIsOutside : Prop :=
  ∀ (i : Instr) (s : State),
    ((∃ a ∈ operandAddresses i, s.cfg.dataCapacity ≤ a) → exec i s = .fault .outOfBounds) ∧
    ((∀ a ∈ operandAddresses i, a < s.cfg.dataCapacity) → ∃ t, exec i s = .next t)

/-- When the word at the PC decodes, a step in Idle is `exec` of that instruction on the state with the word in the IR and
the phase Executing; on completion the phase is Idle again; a fault of the instruction is the step's (R70). -/
def Obligations.StepRunsTheDecodedInstruction : Prop :=
  ∀ (s : State) (w : Word) (i : Instr), s.phase = .idle → progRead s s.pc.toNat = .ok w → decode s.cfg w = .ok i →
    (∀ t, exec i { s with ir := w, phase := .executing } = .next t → step s = .next { t with phase := .idle }) ∧
    ∀ f, exec i { s with ir := w, phase := .executing } = .fault f → step s = .fault f

/-- R71: the fetch reads the program word at the PC, and fails exactly when PC >= PROG_CAPACITY; the step then returns
OutOfBounds and changes nothing at all. -/
def Obligations.FetchFailsExactlyPastTheProgramStore : Prop :=
  ∀ s : State, s.phase = .idle →
    (s.cfg.progCapacity ≤ s.pc.toNat →
      fetch s = .error .outOfBounds ∧ stepTransaction s = .ok (s, .fault .outOfBounds)) ∧
    (s.pc.toNat < s.cfg.progCapacity → ∃ w, progRead s s.pc.toNat = .ok w ∧
      fetch s = .ok { s with ir := w, phase := .executing })

/-- R72: a successful fetch writes the fetched word into the IR, and the word stays there whether the step completes or
fails; it is the only state a failed step changes. -/
def Obligations.InstructionRegisterHoldsTheFetchedWord : Prop :=
  ∀ (s t : State) (res : StepResult), stepTransaction s = .ok (t, res) →
    (∀ w, progRead s s.pc.toNat = .ok w → t.ir = w) ∧ ∀ f, res = .fault f → t = { s with ir := t.ir }

/-- R73: when the fetched word does not decode, the step ends with UnknownOpcode, the PC does not advance and nothing
changes but the IR. -/
def Obligations.UnknownWordEndsTheStep : Prop :=
  ∀ (s : State) (w : Word), s.phase = .idle → progRead s s.pc.toNat = .ok w →
    decode s.cfg w = .error .unknownOpcode → stepTransaction s = .ok ({ s with ir := w }, .fault .unknownOpcode)

/-- R78: a completed step advances the PC by exactly 1 for every instruction, without wrapping, so that PC = PROG_CAPACITY
is reached from the last word; on any failure the PC is left unadvanced. -/
def Obligations.OnlyACompletedStepAdvancesThePc : Prop :=
  ∀ s t : State, s.cfg.Wf →
    (step s = .next t → t.pc.toNat = s.pc.toNat + 1 ∧ t.pc.toNat ≤ t.cfg.progCapacity) ∧
    (step s = .next t → s.pc.toNat = s.cfg.progCapacity - 1 → t.pc.toNat = t.cfg.progCapacity) ∧
    ∀ f, stepTransaction s = .ok (t, .fault f) → t.pc = s.pc

/-- R79: a completed step returns ok, a failed one its fault, and in both cases the phase is Idle; a failed step leaves a
state identical to the one before but for the IR. -/
def Obligations.StepResultAndPhase : Prop :=
  ∀ (s t : State) (res : StepResult), stepTransaction s = .ok (t, res) →
    t.phase = .idle ∧ (res = .ok ↔ step s = .next t) ∧ ∀ f, res = .fault f → step s = .fault f ∧ { t with ir := s.ir } = s

/-- R100: there are exactly two faults, and a step in Idle raises each exactly under the conditions of the rule's table. -/
def Obligations.TwoFaultsWithTheirConditions : Prop :=
  (∀ f : Fault, f = .outOfBounds ∨ f = .unknownOpcode) ∧
  ∀ s : State, s.phase = .idle →
    (step s = .fault .unknownOpcode ↔
      ∃ w, progRead s s.pc.toNat = .ok w ∧ decode s.cfg w = .error .unknownOpcode) ∧
    (step s = .fault .outOfBounds ↔
      s.cfg.progCapacity ≤ s.pc.toNat ∨
      ∃ w, progRead s s.pc.toNat = .ok w ∧
        ((∃ d r, (decode s.cfg w = .ok (.add d r) ∨ decode s.cfg w = .ok (.adc d r) ∨ decode s.cfg w = .ok (.and d r)) ∧
            (s.cfg.dataCapacity ≤ d.toNat ∨ s.cfg.dataCapacity ≤ r.toNat)) ∨
          ∃ p k, decode s.cfg w = .ok (.adiw p k) ∧ s.cfg.dataCapacity ≤ p.toNat + 1))

/-- R105: the state after a fault, stage by stage: PC, SREG and the three stores unchanged, the IR unchanged after a failed
fetch and the offending word after a failed decode or execute. -/
def Obligations.StateAfterAFault : Prop :=
  ∀ (s t : State) (f : Fault), stepTransaction s = .ok (t, .fault f) →
    t.pc = s.pc ∧ t.sreg = s.sreg ∧ t.data = s.data ∧ t.prog = s.prog ∧ t.eeprom = s.eeprom ∧
    (s.cfg.progCapacity ≤ s.pc.toNat → f = .outOfBounds ∧ t.ir = s.ir) ∧
    ∀ w, progRead s s.pc.toNat = .ok w → t.ir = w

/-- A fault is permanent (60_exceptions.md section 4, an inference the spec marks): after it every further step, however
many, returns the same fault and leaves the same state. -/
def Obligations.FaultIsPermanent : Prop :=
  ∀ (s t : State) (f : Fault), stepTransaction s = .ok (t, .fault f) →
    ∀ n, afterSteps n t = .ok t ∧ stepTransaction t = .ok (t, .fault f)

/-- With at least 32 data cells the execute fault cannot happen: every known word completes (10_state.md section 1,
40_step_cycle.md section 1, inferences the spec marks). -/
def Obligations.KnownWordsCompleteWithAFullRegisterFile : Prop :=
  ∀ (s : State) (w : Word) (i : Instr), s.phase = .idle → 32 ≤ s.cfg.dataCapacity →
    progRead s s.pc.toNat = .ok w → decode s.cfg w = .ok i → ∃ t, step s = .next t

/-- In Idle a step always completes or faults; only a request while a step is in flight has no move
(70_reset_and_hazards.md section 4; the refusal is the model's choice, log entry 13). -/
def Obligations.StepIsRefusedOnlyInFlight : Prop :=
  ∀ s : State,
    (s.phase = .idle → ∃ t res, stepTransaction s = .ok (t, res)) ∧
    (s.phase = .executing → step s = .refused .requestInFlight)

/-! ### Invariants and whole-machine rules -/

/-- Every completed step keeps a legal state legal: canonical stores inside their capacities, no data cell at SREG's place,
the PC in 0 to PROG_CAPACITY, the configuration legal, the phase Idle (10_state.md sections 2 and 6; 20_memory.md section
1; the store's form is the model's, log entry 2). -/
def Obligations.StepKeepsTheStateLegal : Prop :=
  ∀ s t : State, s.Wf → step s = .next t → t.Wf

/-- The reset state is legal, and so is every newly constructed core with legal parameters (10_state.md sections 2, 6 and 8;
70_reset_and_hazards.md section 1). Of "legal", the stores' canonical form is the model's choice (log entry 2), and the PC
of a new core is the spec's decision D6 (log entry 5). -/
def Obligations.NewStateIsLegal : Prop :=
  State.reset.Wf ∧ ∀ c : Config, c.Wf → (State.new c).Wf

/-- No step, completed or failed, changes the configuration, a word of PROG or a cell of EEPROM (10_state.md section 5;
20_memory.md sections 1 and 7, inferences the spec marks): every fetch sees the loaded image. -/
def Obligations.StepKeepsConfigurationProgramAndEeprom : Prop :=
  ∀ (s t : State) (res : StepResult), stepTransaction s = .ok (t, res) →
    t.cfg = s.cfg ∧ t.prog = s.prog ∧ t.eeprom = s.eeprom

/-- No step changes a data cell at address 32 or above, SREG's own place apart (10_state.md sections 1 and 5; 20_memory.md
section 1, an inference the spec marks). -/
def Obligations.StepLeavesIoSpaceAndSram : Prop :=
  ∀ (s t : State) (res : StepResult), s.cfg.Wf → stepTransaction s = .ok (t, res) →
    ∀ a, 32 ≤ a → a ≠ s.cfg.sregAddr → dataRead t a = dataRead s a

/-- The sign flag of 10_state.md section 4: after every instruction and every completed step S = N xor V, whatever SREG was
before; it is no invariant of arbitrary states. -/
def Obligations.SignIsNegativeXorOverflow : Prop :=
  (∀ (s t : State) (i : Instr), exec i s = .next t → t.sreg.getLsbD 4 = (t.sreg.getLsbD 2 ^^ t.sreg.getLsbD 3)) ∧
  (∀ s t : State, step s = .next t → t.sreg.getLsbD 4 = (t.sreg.getLsbD 2 ^^ t.sreg.getLsbD 3)) ∧
  ∃ s : State, s.Wf ∧ s.sreg.getLsbD 4 ≠ (s.sreg.getLsbD 2 ^^ s.sreg.getLsbD 3)

/-- T and I are inert storage bits (10_state.md section 4; 60_exceptions.md section 5; the spec's decision D14, log entry
18): a step keeps them, and inverting them beforehand changes nothing of a step but the bits themselves. -/
def Obligations.TransferAndInterruptBitsAreInert : Prop :=
  ∀ (s : State) (m : Byte), s.cfg.Wf → m &&& 0x3F#8 = 0#8 →
    (∀ t, step s = .next t → t.sreg &&& 0xC0#8 = s.sreg &&& 0xC0#8 ∧
      step { s with sreg := s.sreg ^^^ m } = .next { t with sreg := t.sreg ^^^ m }) ∧
    ∀ f, step s = .fault f → step { s with sreg := s.sreg ^^^ m } = .fault f

/-- What every session the host can bring about satisfies: its core is legal, T and I are 0, S = N xor V, every data cell
at 32 or above reads 0 but for SREG's place (10_state.md sections 2, 4 and 5, inferences the spec marks). Of "legal", the
stores' canonical form is the model's choice (log entry 2); PC and SREG of a new core are the spec's decision D6 (log entry
5), and the loads' corner cases its decisions D8 to D10 (log entries 8 to 10). -/
def Obligations.ReachableSessionsAreLegal : Prop :=
  ∀ h : Session, Reachable h →
    h.core.Wf ∧ h.core.sreg.getLsbD 6 = false ∧ h.core.sreg.getLsbD 7 = false ∧
    h.core.sreg.getLsbD 4 = (h.core.sreg.getLsbD 2 ^^ h.core.sreg.getLsbD 3) ∧
    ∀ a, 32 ≤ a → a < h.core.cfg.dataCapacity → a ≠ h.core.cfg.sregAddr → dataRead h.core a = .ok 0

/-- Every run ends in a fault (70_reset_and_hazards.md section 3, an inference the spec marks): from a legal state at most
PROG_CAPACITY - PC steps complete, whatever the program store holds. -/
def Obligations.EveryRunEndsInAFault : Prop :=
  ∀ s : State, s.Wf → ∃ f : Fault, Sys2Proof.core.run (s.cfg.progCapacity - s.pc.toNat + 1) s = .fault f

/-- What a step depends on (60_exceptions.md section 4, 20_memory.md section 7): two states with the same configuration, PC,
word at the PC, SREG and registers give the same result, PC, SREG and registers, whatever their EEPROM, IR, other program
words and other data cells hold. -/
def Obligations.StepDependsOnPcWordFlagsAndRegisters : Prop :=
  ∀ (s₁ s₂ t₁ : State) (res : StepResult), s₁.cfg.Wf → StoresWf s₁ → StoresWf s₂ →
    s₂.cfg = s₁.cfg → s₂.phase = s₁.phase → s₂.pc = s₁.pc → s₂.sreg = s₁.sreg →
    progRead s₂ s₂.pc.toNat = progRead s₁ s₁.pc.toNat → (∀ a < 32, dataRead s₂ a = dataRead s₁ a) →
    stepTransaction s₁ = .ok (t₁, res) →
    ∃ t₂, stepTransaction s₂ = .ok (t₂, res) ∧ t₂.pc = t₁.pc ∧ t₂.sreg = t₁.sreg ∧
      ∀ a < 32, dataRead t₂ a = dataRead t₁ a

/-! ### Stores, construction, loads and hooks (20_memory.md, 70_reset_and_hazards.md) -/

/-- The bounded write of 20_memory.md section 1, of a store of any word width: outside the capacity it fails and so does
the read; inside it replaces that one cell, every other cell reads as before, and the store stays in the model's canonical
form (log entry 2). -/
def Obligations.BoundedWriteReplacesOneCell : Prop :=
  ∀ (w capacity a : Nat) (m : Memory w) (v : BitVec w), Memory.Wf m → Memory.Within capacity m →
    (capacity ≤ a →
      boundedWrite capacity m a v = .error .outOfBounds ∧ boundedRead capacity m a = .error .outOfBounds) ∧
    (a < capacity → ∃ m', boundedWrite capacity m a v = .ok m' ∧ boundedRead capacity m' a = .ok v ∧
      (∀ b, b ≠ a → boundedRead capacity m' b = boundedRead capacity m b) ∧ Memory.Wf m' ∧ Memory.Within capacity m')

/-- A data write followed by a data read (20_memory.md section 1), SREG's place included (the aliasing is the spec's
decision D5, log entry 6): the byte written is read back, every other address reads as before, and PROG, EEPROM, PC, IR
and, but for a write at SREG's place, SREG are unchanged. That the stores stay in canonical form, with no cell at SREG's
place, is a clause on the model's own form (log entry 2, a DESIGN CHOICE). -/
def Obligations.DataWriteIsReadBack : Prop :=
  ∀ (s : State) (a : Nat) (v : Byte), StoresWf s →
    (a < s.cfg.dataCapacity → ∃ t, dataWrite s a v = .ok t ∧ dataRead t a = .ok v ∧
      (∀ b, b ≠ a → dataRead t b = dataRead s b) ∧ StoresWf t ∧
      (a = s.cfg.sregAddr → t.sreg = v) ∧ (a ≠ s.cfg.sregAddr → t.sreg = s.sreg) ∧
      t.cfg = s.cfg ∧ t.prog = s.prog ∧ t.eeprom = s.eeprom ∧ t.pc = s.pc ∧ t.ir = s.ir ∧ t.phase = s.phase) ∧
    (s.cfg.dataCapacity ≤ a → dataWrite s a v = .error .outOfBounds ∧ dataRead s a = .error .outOfBounds)

/-- Isolation (20_memory.md section 1): the three stores are never aliased: a write to one changes no cell of another. -/
def Obligations.StoresAreIsolated : Prop :=
  ∀ (s t : State),
    (∀ a v, dataWrite s a v = .ok t → ∀ b, progRead t b = progRead s b ∧ eepromRead t b = eepromRead s b) ∧
    (∀ bytes, loadProgram s bytes = some t → ∀ b, dataRead t b = dataRead s b ∧ eepromRead t b = eepromRead s b) ∧
    ∀ bytes, loadEeprom s bytes = some t → ∀ b, dataRead t b = dataRead s b ∧ progRead t b = progRead s b

/-- The state after construction (10_state.md section 8): every cell of every store reads zero inside its capacity, hence
every register; PC, IR and SREG zero (the spec's decision D6, log entry 5), phase Idle; and the default capacities. -/
def Obligations.ConstructionLeavesZeros : Prop :=
  (∀ c : Config,
    (∀ a < c.dataCapacity, dataRead (State.new c) a = .ok 0) ∧
    (∀ a < c.progCapacity, progRead (State.new c) a = .ok 0) ∧
    (∀ a < c.eepromCapacity, eepromRead (State.new c) a = .ok 0) ∧
    (State.new c).cfg = c ∧ (State.new c).pc = 0 ∧ (State.new c).ir = 0 ∧ (State.new c).sreg = 0 ∧
    (State.new c).phase = .idle) ∧
  State.reset.cfg.progCapacity = 4096 ∧ State.reset.cfg.dataCapacity = 351 ∧ State.reset.cfg.eepromCapacity = 512

/-- A core without a program faults at its first step and nothing has changed. In the default configuration the fault is
UnknownOpcode (70_reset_and_hazards.md section 2, an inference the spec marks); so it is in every configuration whose opcode
values are all nonzero, since the word 0x0000 then matches no entry of the table (30_encoding.md section 4); where the
program store has no words the fetch fails with OutOfBounds (40_step_cycle.md section 1). The opcode values are the spec's
decision D2 (log entry 4), the PC and IR of a new core its decision D6 (log entry 5). -/
def Obligations.UnloadedCoreFaultsAtOnce : Prop :=
  (∀ c : Config, c.opcAdd ≠ 0 ∧ c.opcAdc ≠ 0 ∧ c.opcAnd ≠ 0 ∧ c.opcAdiw ≠ 0 → 0 < c.progCapacity →
    stepTransaction (State.new c) = .ok (State.new c, .fault .unknownOpcode)) ∧
  (∀ c : Config, c.progCapacity = 0 → stepTransaction (State.new c) = .ok (State.new c, .fault .outOfBounds)) ∧
  stepTransaction State.reset = .ok (State.reset, .fault .unknownOpcode)

/-- `load_program` (70_reset_and_hazards.md section 2; the odd last byte and the name LoadError are the spec's decision D8,
log entry 8): a buffer of at most 2 * PROG_CAPACITY bytes replaces every word of PROG by its little-endian word, zeros
beyond the buffer, and changes nothing else; a longer one is LoadError. -/
def Obligations.LoadProgramFillsTheProgramStore : Prop :=
  ∀ (s : State) (bytes : List Byte),
    (2 * s.cfg.progCapacity < bytes.length → loadProgram s bytes = none) ∧
    (bytes.length ≤ 2 * s.cfg.progCapacity → ∃ t, loadProgram s bytes = some t ∧
      (∀ i < s.cfg.progCapacity, progRead t i = .ok (bytes.getD (2 * i + 1) 0 ++ bytes.getD (2 * i) 0)) ∧
      { t with prog := s.prog } = s)

/-- `load_eeprom` (70_reset_and_hazards.md section 2; its meaning is the spec's decision D9, log entry 10). -/
def Obligations.LoadEepromFillsTheEeprom : Prop :=
  ∀ (s : State) (bytes : List Byte),
    (s.cfg.eepromCapacity < bytes.length → loadEeprom s bytes = none) ∧
    (bytes.length ≤ s.cfg.eepromCapacity → ∃ t, loadEeprom s bytes = some t ∧
      (∀ i < s.cfg.eepromCapacity, eepromRead t i = .ok (bytes.getD i 0)) ∧ { t with eeprom := s.eeprom } = s)

/-- Loads happen before the first step only (70_reset_and_hazards.md section 2; the refusal is the spec's decision D10, log
entry 9): once a step has been requested, failed or not, every later load is refused, whatever came between; before it, a
load in Idle is answered. -/
def Obligations.LoadsOnlyBeforeTheFirstStep : Prop :=
  (∀ (h h₁ h₂ : Session) (r : Response), transact h .step = .ok (h₁, r) → Later h₁ h₂ → h₂.core.phase = .idle →
    ∀ bytes, transact h₂ (.loadProgram bytes) = .error .loadAfterStep ∧
      transact h₂ (.loadEeprom bytes) = .error .loadAfterStep) ∧
  ∀ (h : Session), h.stepped = false → h.core.phase = .idle → ∀ bytes,
    ∃ h₁ h₂ r₁ r₂, transact h (.loadProgram bytes) = .ok (h₁, r₁) ∧ transact h (.loadEeprom bytes) = .ok (h₂, r₂)

/-- R115: each hook returns what the rule's table says and alters nothing; none tells anything of the IR or of the program
store, since with any others in their place it answers the same. -/
def Obligations.HooksReadAndAlterNothing : Prop :=
  ∀ h : Session, h.core.phase = .idle →
    (∀ i < 32, ∀ b, dataRead h.core i = .ok b → transact h (.peekRegister i) = .ok (h, .byte b)) ∧
    (∀ a b, dataRead h.core a = .ok b → transact h (.peekData a) = .ok (h, .byte b)) ∧
    (∀ a b, eepromRead h.core a = .ok b → transact h (.peekEeprom a) = .ok (h, .byte b)) ∧
    transact h .peekFlags = .ok (h, .byte h.core.sreg) ∧
    transact h .programCounter = .ok (h, .address h.core.pc) ∧
    (h.core.cfg.sregAddr < h.core.cfg.dataCapacity →
      transact h (.peekData h.core.cfg.sregAddr) = .ok (h, .byte h.core.sreg)) ∧
    ∀ q h' r, q ≠ .step → (∀ bytes, q ≠ .loadProgram bytes ∧ q ≠ .loadEeprom bytes) →
      transact h q = .ok (h', r) → h' = h ∧ ∀ (ir : Word) (prog : Memory 16),
        transact { h with core := { h.core with ir := ir, prog := prog } } q =
          .ok ({ h with core := { h.core with ir := ir, prog := prog } }, r)

/-- A hook given an invalid address answers OutOfBounds and changes nothing (60_exceptions.md section 8; the spec's decision
D11, log entry 12). -/
def Obligations.HooksOutOfRangeAnswerOutOfBounds : Prop :=
  ∀ (h : Session) (a : Nat), h.core.phase = .idle →
    (32 ≤ a ∨ h.core.cfg.dataCapacity ≤ a → transact h (.peekRegister a) = .ok (h, .fault .outOfBounds)) ∧
    (h.core.cfg.dataCapacity ≤ a → transact h (.peekData a) = .ok (h, .fault .outOfBounds)) ∧
    (h.core.cfg.eepromCapacity ≤ a → transact h (.peekEeprom a) = .ok (h, .fault .outOfBounds))

/-- An invariant of the host's transactions, from every session that satisfies it and not only reachable ones: construction
with legal parameters establishes it, and every transaction that is answered, a failed step or load too, keeps it
(10_state.md sections 2, 4 and 5; 70_reset_and_hazards.md section 4). Of "legal", the stores' canonical form is the model's
choice (log entry 2); PC and SREG of a new core are the spec's decision D6 (log entry 5), and the loads' corner cases its
decisions D8 to D10 (log entries 8 to 10). -/
def Obligations.TransactionsKeepASessionQuiet : Prop :=
  (∀ c : Config, c.Wf → QuietSession (Session.new c)) ∧
  ∀ (h h' : Session) (q : Request) (r : Response), QuietSession h → transact h q = .ok (h', r) → QuietSession h'
end

