-- ==== Sys2Proof/Laws/PerInstr.lean ====
section
/-! SUPPORT. Facts about every instruction as syntax, one lemma per constructor. -/

namespace Sys2Proof.Laws.EncodingHasItsOpcode

/-- The opcode field of the encoded word holds the instruction's own opcode parameter: bits 15:8 for format WI, bits 15:10
for format RR (R51, R52, R57). -/
def Statement (i : Instr) : Prop :=
  ∀ c : Config, match i with
    | .adiw _ _ => (encode c i).extractLsb' 8 8 = c.opcAdiw
    | .add _ _ => (encode c i).extractLsb' 10 6 = c.opcAdd
    | .adc _ _ => (encode c i).extractLsb' 10 6 = c.opcAdc
    | .and _ _ => (encode c i).extractLsb' 10 6 = c.opcAnd

theorem wi (opc : BitVec 8) (p : RegIdx) (k : BitVec 6) : (encodeWI opc p k).extractLsb' 8 8 = opc := by
  apply BitVec.eq_of_getLsbD_eq
  intro j hj
  simp only [encodeWI, BitVec.getLsbD_extractLsb', BitVec.getLsbD_append]
  simp [hj, show ¬ 8 + j < 4 by omega, show ¬ 8 + j - 4 < 2 by omega, show ¬ 8 + j - 4 - 2 < 2 by omega,
    show 8 + j - 4 - 2 - 2 = j by omega]

theorem rr (opc : BitVec 6) (d r : RegIdx) : (encodeRR opc d r).extractLsb' 10 6 = opc := by
  apply BitVec.eq_of_getLsbD_eq
  intro j hj
  simp only [encodeRR, BitVec.getLsbD_extractLsb', BitVec.getLsbD_append]
  simp [hj, show ¬ 10 + j < 4 by omega, show ¬ 10 + j - 4 < 5 by omega, show ¬ 10 + j - 4 - 5 < 1 by omega,
    show 10 + j - 4 - 5 - 1 = j by omega]

theorem adiw (p : RegIdx) (k : BitVec 6) : Statement (.adiw p k) := fun c => wi c.opcAdiw p k
theorem add (d r : RegIdx) : Statement (.add d r) := fun c => rr c.opcAdd d r
theorem adc (d r : RegIdx) : Statement (.adc d r) := fun c => rr c.opcAdc d r
theorem and (d r : RegIdx) : Statement (.and d r) := fun c => rr c.opcAnd d r

end Sys2Proof.Laws.EncodingHasItsOpcode
end

