-- ==== Sys2Proof/Tests/Slice0.lean ====
section
/-! SUPPORT. Tests of the model, expected values from the spec (95_test_vectors.md unless another place is named), and a
witness for the hypotheses of each statement of Certificates/Slice0/Obligations.lean. -/

namespace Sys2Proof.Tests
open Sys2Proof Sys2Proof.Machine Sys2Proof.Statements

/-! ### Helpers -/

/-- The outcome is a next state with the property. -/
def nextAnd (o : Outcome) (p : State → Bool) : Bool :=
  match o with
  | .next t => p t
  | .fault _ => false
  | .refused _ => false

/-- The outcome is this fault. -/
def isFault (o : Outcome) (f : Fault) : Bool :=
  match o with
  | .next _ => false
  | .fault g => decide (g = f)
  | .refused _ => false

/-- A fresh core with this word at the PC, these register cells (rising, none 0) and this SREG. -/
def coreWith (w : Word) (regs : List (Nat × Byte)) (sreg : Byte) : State :=
  { State.reset with prog := setCell [] 0 w, data := regs, sreg := sreg }

/-- A core with a cut-down data store (D18). -/
def smallCore (cells : Nat) (w : Word) : State :=
  { State.reset with cfg := { Config.default with dataCapacity := cells }, prog := setCell [] 0 w }

/-- Register `i` reads `v`. -/
def regIs (t : State) (i : Nat) (v : Byte) : Bool :=
  match dataRead t i with
  | .ok b => b == v
  | .error _ => false

/-! ### WellFormed, the decoder and the encoder -/

/-- R54: only 24, 26, 28 and 30 are low halves. -/
theorem test_wf_refuses_odd_pair : ¬ (Instr.adiw 25 0).Wf ∧ ¬ (Instr.adiw 22 0).Wf ∧ (Instr.adiw 30 63).Wf := by decide

/-- Words written bit by bit from R57 and R53: `0000 11rd dddd rrrr` with d = 16, r = 17, and d = 8, r = 31. -/
theorem test_decode_add : decode Config.default 0b0000111100000001 = .ok (.add 16 17) ∧
    decode Config.default 0b0000111010001111 = .ok (.add 8 31) := by decide

/-- `0001 11rd dddd rrrr` with d = 17, r = 25. -/
theorem test_decode_adc : decode Config.default 0b0001111100011001 = .ok (.adc 17 25) := by decide

/-- `0010 00rd dddd rrrr` with d = 1, r = 1, and d = 16, r = 17. -/
theorem test_decode_and : decode Config.default 0b0010000000010001 = .ok (.and 1 1) ∧
    decode Config.default 0b0010001100000001 = .ok (.and 16 17) := by decide

/-- `1001 0110 KKpp KKKK` with p = 00, K = 63, and p = 11, K = 1 (R54). -/
theorem test_decode_adiw : decode Config.default 0b1001011011001111 = .ok (.adiw 24 63) ∧
    decode Config.default 0b1001011000110001 = .ok (.adiw 30 1) := by decide

/-- 0x0000 and the neighbours of the ADD and ADC ranges are unknown (section 2.1). -/
theorem test_decode_rejects_below : decode Config.default 0x0000 = .error .unknownOpcode ∧
    decode Config.default 0x0BFF = .error .unknownOpcode ∧ decode Config.default 0x1000 = .error .unknownOpcode ∧
    decode Config.default 0x1BFF = .error .unknownOpcode := by decide

/-- The neighbours of the AND and ADIW ranges and 0xFFFF are unknown (section 2.1). -/
theorem test_decode_rejects_above : decode Config.default 0x2400 = .error .unknownOpcode ∧
    decode Config.default 0x95FF = .error .unknownOpcode ∧ decode Config.default 0x9700 = .error .unknownOpcode ∧
    decode Config.default 0xFFFF = .error .unknownOpcode := by decide

/-- R63's examples. -/
theorem test_encode : encode Config.default (.add 16 17) = 0x0F01 ∧ encode Config.default (.add 8 31) = 0x0E8F ∧
    encode Config.default (.adc 17 25) = 0x1F19 ∧ encode Config.default (.and 1 1) = 0x2011 ∧
    encode Config.default (.adiw 24 63) = 0x96CF ∧ encode Config.default (.adiw 30 1) = 0x9631 := by decide

/-- R56: the table stands from the most fixed bits to the least (8, 6, 6, 6). -/
theorem test_table_most_specific_first : ((decodeTable Config.default).map fun e =>
    ((List.range 16).filter fun b => e.mask.getLsbD b).length) = [8, 6, 6, 6] := by decide

/-- The table's numbering of bits is the word's (opcode_table.json). -/
theorem test_decodeTableWord : decodeTableWord 16 0x96CF = some (.adiw 24 63) ∧ decodeTableWord 16 0x0000 = none := by decide

/-! ### The instructions: two rows of section 2 each -/

theorem test_add_signed_overflow : nextAnd (exec (.add 16 17) (coreWith 0 [(16, 0x50), (17, 0x50)] 0)) fun t =>
    regIs t 16 0xA0 && t.sreg == 0x0C && t.pc == 1 := by decide

theorem test_add_ignores_carry_in : nextAnd (exec (.add 16 17) (coreWith 0 [(16, 0x08), (17, 0x08)] 0xC1)) fun t =>
    regIs t 16 0x10 && t.sreg == 0xE0 && regIs t 17 0x08 := by decide

theorem test_adc_source_example : nextAnd (exec (.adc 16 17) (coreWith 0 [(16, 0xFF)] 0x01)) fun t =>
    regIs t 16 0x00 && t.sreg == 0x23 := by decide

theorem test_adc_same_register : nextAnd (exec (.adc 16 16) (coreWith 0 [(16, 0xFF)] 0x01)) fun t =>
    regIs t 16 0xFF && t.sreg == 0x35 := by decide

theorem test_adiw_carries_between_bytes : nextAnd (exec (.adiw 24 1) (coreWith 0 [(24, 0xFF)] 0xE1)) fun t =>
    regIs t 25 0x01 && regIs t 24 0x00 && t.sreg == 0xE0 := by decide

theorem test_adiw_signed_overflow : nextAnd (exec (.adiw 30 63) (coreWith 0 [(30, 0xC1), (31, 0x7F)] 0x20)) fun t =>
    regIs t 31 0x80 && regIs t 30 0x00 && t.sreg == 0x2C := by decide

theorem test_and_keeps_carry_and_half_carry :
    nextAnd (exec (.and 16 17) (coreWith 0 [(16, 0xF0), (17, 0x0F)] 0x21)) fun t =>
      regIs t 16 0x00 && t.sreg == 0x23 := by decide

theorem test_and_clears_overflow : nextAnd (exec (.and 16 17) (coreWith 0 [(16, 0xFF), (17, 0xFF)] 0x08)) fun t =>
    regIs t 16 0xFF && t.sreg == 0x14 := by decide

/-! ### The step, its faults, the stores and the host (sections 2.6 to 2.8, programs C to E) -/

/-- Section 2.8: PROG[0] = 0x9601 on a fresh core. -/
theorem test_step_adiw : nextAnd (step (coreWith 0x9601 [] 0)) fun t =>
    regIs t 24 0x01 && regIs t 25 0 && t.sreg == 0 && t.pc == 1 && t.ir == 0x9601 && decide (t.phase = .idle) := by decide

/-- Section 2.8: nothing loaded, and the PC at the capacity. -/
theorem test_step_faults : isFault (step State.reset) .unknownOpcode ∧
    isFault (step { State.reset with pc := 4096 }) .outOfBounds := by decide

/-- Program D: the word in the IR after an unknown word, everything else as before. -/
theorem test_unknown_word_keeps_ir : stepTransaction (coreWith 0x9700 [] 0) =
    .ok ({ coreWith 0x9700 [] 0 with ir := 0x9700 }, .fault .unknownOpcode) := by decide

/-- Program E: `ADIW r24, 5` with 25 data cells writes nothing but the IR. -/
theorem test_adiw_all_or_nothing : stepTransaction (smallCore 25 0x9605) =
    .ok ({ smallCore 25 0x9605 with ir := 0x9605 }, .fault .outOfBounds) := by decide

/-- Section 2.6: the bounds of the three stores, and SREG at 0x5F. -/
theorem test_store_bounds : dataRead State.reset 350 = .ok 0 ∧ dataRead State.reset 351 = .error .outOfBounds ∧
    progRead State.reset 4095 = .ok 0 ∧ progRead State.reset 4096 = .error .outOfBounds ∧
    eepromRead State.reset 511 = .ok 0 ∧ eepromRead State.reset 512 = .error .outOfBounds ∧
    dataRead (coreWith 0 [] 0x23) 0x5F = .ok 0x23 := by decide

/-- Section 2.7: the images `CF 96 08 0F` and `CF 96 08`, and `load_eeprom` of `01 02 03`. -/
theorem test_loads :
    (loadProgram State.reset [0xCF, 0x96, 0x08, 0x0F]).map (·.prog) = some [(0, 0x96CF), (1, 0x0F08)] ∧
    (loadProgram State.reset [0xCF, 0x96, 0x08]).map (·.prog) = some [(0, 0x96CF), (1, 0x0008)] ∧
    (loadEeprom State.reset [1, 2, 3]).map (·.eeprom) = some [(0, 1), (1, 2), (2, 3)] := by decide

/-- A program that does not fit is LoadError (program C: four words, a ninth byte). -/
theorem test_load_too_long :
    (loadProgram (State.new { Config.default with progCapacity := 4 }) [0, 0, 0, 0, 0, 0, 0, 0, 0]).isNone = true := by decide

/-- The word placed for the host runs as the first instruction after reset. -/
theorem test_withFetchWord_runs : nextAnd (step (State.reset.withFetchWord 16 0x96CF)) fun t =>
    regIs t 24 63 && t.ir == 0x96CF := by decide

/-- Overlapping parameters (R57): a word of both entries is ADIW. -/
theorem test_overlap_gives_adiw : decode { Config.default with opcAdiw := 0b00001100 } 0x0C05 = .ok (.adiw 24 5) := by decide

/-! ### Witnesses: for each statement with hypotheses, states and operands that meet them together -/

/-- A core that adds r17 to r16 next. -/
def adding : State := coreWith 0x0F01 [(16, 0x7F), (17, 0x01)] 0x01
/-- A core that adds with carry next. -/
def addingWithCarry : State := coreWith 0x1F01 [(16, 0x7F), (17, 0x01)] 0x01
/-- A core that adds 63 to r31:r30 next, the last pair and the largest immediate. -/
def wideAdding : State := coreWith 0x96FF [(30, 0xC1), (31, 0xFF)] 0x20
/-- A core whose word at the PC is unknown. -/
def unknownNext : State := { coreWith 0x9700 [] 0 with ir := 0x9700 }
/-- A core whose PC has run off the top. -/
def pastTheEnd : State := { adding with pc := 4096 }
/-- A core about to run the last word of its program store. -/
def lastWord : State := { adding with prog := [(4095, 0x0F01)], pc := 4095 }

theorem witness_TwoRegisterOperandFields :
    decode Config.default 0x0FFF = .ok (.add 31 31) ∧ decode Config.default 0x1C00 = .ok (.adc 0 0) ∧
    decode Config.default 0x2301 = .ok (.and 16 17) ∧ Config.default.Wf ∧
    ∀ o ∈ [Config.default.opcAdd, Config.default.opcAdc, Config.default.opcAnd],
      Config.default.opcAdiw.toNat / 4 ≠ o.toNat := by decide

theorem witness_WideImmediateOperandFields :
    decode Config.default 0x96FF = .ok (.adiw 30 63) ∧ decode Config.default 0x9600 = .ok (.adiw 24 0) := by decide

theorem witness_MostSpecificEntryWins :
    { Config.default with opcAdiw := 0b00001100 }.Wf ∧ (0x0C05#16).toNat / 256 = 0b00001100 ∧
    Config.default.Wf ∧ (0x0C00#16).toNat / 256 ≠ Config.default.opcAdiw.toNat ∧
    (0x0C00#16).toNat / 1024 = Config.default.opcAdd.toNat ∧ (0x1FFF#16).toNat / 1024 = Config.default.opcAdc.toNat ∧
    (0x23FF#16).toNat / 1024 = Config.default.opcAnd.toNat ∧
    (0x2400#16).toNat / 1024 ≠ Config.default.opcAdd.toNat ∧ (0x2400#16).toNat / 1024 ≠ Config.default.opcAdc.toNat ∧
    (0x2400#16).toNat / 1024 ≠ Config.default.opcAnd.toNat := by decide

theorem witness_DecodeOfEncodeIsTheInstruction :
    (Instr.adiw 30 63).Wf ∧ (Instr.add 31 31).Wf ∧ Config.default.Wf ∧
    ∀ o ∈ [Config.default.opcAdd, Config.default.opcAdc, Config.default.opcAnd],
      Config.default.opcAdiw.toNat / 4 ≠ o.toNat := by decide

theorem witness_EncodeOfDecodeIsTheWord : decode Config.default 0x96FF = .ok (.adiw 30 63) := by decide

/-- Of AddFollowsItsRule, AdcFollowsItsRule, AndFollowsItsRule and AndIsBoundedCommutativeIdempotent: both registers
readable; and each of them outside a data store of 17 or 16 cells. -/
theorem witness_two_register_rules :
    adding.cfg.Wf ∧ StoresWf adding ∧ dataRead adding (16#5).toNat = .ok 0x7F ∧ dataRead adding (17#5).toNat = .ok 0x01 ∧
    ((smallCore 17 0).cfg.dataCapacity ≤ (16#5).toNat ∨ (smallCore 17 0).cfg.dataCapacity ≤ (17#5).toNat) ∧
    ((smallCore 16 0).cfg.dataCapacity ≤ (16#5).toNat ∨ (smallCore 16 0).cfg.dataCapacity ≤ (15#5).toNat) := by decide

/-- Of AdiwFollowsItsRule and AdiwFlagsDescribeTheExactSum: the pair readable; its high register outside; and a step that fetches such an ADIW. -/
theorem witness_AdiwFollowsItsRule :
    wideAdding.cfg.Wf ∧ StoresWf wideAdding ∧ IsPairLow 30 ∧ dataRead wideAdding (30#5).toNat = .ok 0xC1 ∧
    dataRead wideAdding ((30#5).toNat + 1) = .ok 0xFF ∧ (smallCore 31 0).cfg.dataCapacity ≤ (30#5).toNat + 1 ∧
    (smallCore 25 0x9605).phase = .idle ∧ progRead (smallCore 25 0x9605) (smallCore 25 0x9605).pc.toNat = .ok 0x9605 ∧
    decode (smallCore 25 0x9605).cfg 0x9605 = .ok (.adiw 24 5) ∧ (smallCore 25 0).cfg.dataCapacity ≤ (24#5).toNat + 1 := by
  decide

theorem witness_AddFlagsDescribeTheExactSum :
    adding.cfg.Wf ∧ StoresWf adding ∧ dataRead adding (16#5).toNat = .ok 0x7F ∧ dataRead adding (17#5).toNat = .ok 0x01 ∧
    (Instr.add 16 17 = .add 16 17 ∧ 0 = 0 ∨ Instr.add 16 17 = .adc 16 17 ∧ 0 = adding.sreg.toNat % 2) ∧
    (Instr.adc 16 17 = .add 16 17 ∧ 1 = 0 ∨ Instr.adc 16 17 = .adc 16 17 ∧ 1 = adding.sreg.toNat % 2) := by decide

theorem witness_AddThenAdcAddsSixteenBits :
    wideAdding.cfg.Wf ∧ StoresWf wideAdding ∧ (30#5) ≠ 31#5 ∧ (30#5) ≠ 29#5 ∧ dataRead wideAdding (30#5).toNat = .ok 0xC1 ∧
    dataRead wideAdding (28#5).toNat = .ok 0 ∧ dataRead wideAdding (31#5).toNat = .ok 0xFF ∧
    dataRead wideAdding (29#5).toNat = .ok 0 := by decide

theorem witness_SameRegisterForms :
    adding.cfg.Wf ∧ StoresWf adding ∧ dataRead adding (16#5).toNat = .ok 0x7F := by decide

theorem witness_AdcWithCarryClearIsAdd : wideAdding.sreg.getLsbD 0 = false := by decide

/-- Completed instructions of each kind: of OnlyAdcReadsTheCarry, the two frames, ExactlyTheListedFlagsAreModified and
SignIsNegativeXorOverflow. -/
theorem witness_completed_instructions :
    (∃ t, exec (.add 16 17) adding = .next t) ∧ (∃ t, exec (.adc 16 17) adding = .next t) ∧
    (∃ t, exec (.and 16 17) adding = .next t) ∧ (∃ t, exec (.adiw 30 63) wideAdding = .next t) ∧
    adding.cfg.Wf ∧ wideAdding.cfg.Wf ∧ (Instr.adiw 30 63).Wf ∧
    (readsCarry (.adc 16 17) = true → (0x41#8).getLsbD 0 = adding.sreg.getLsbD 0) := by
  refine ⟨⟨_, rfl⟩, ⟨_, rfl⟩, ⟨_, rfl⟩, ⟨_, rfl⟩, ?_⟩
  decide

/-- Of ExactlyTheListedFlagsAreModified's second clause: a listed flag of each instruction. -/
theorem witness_flagsWritten : 5 ∈ flagsWritten (.add 0 31) ∧ 5 ∈ flagsWritten (.adc 0 31) ∧ 3 ∈ flagsWritten (.and 0 31) ∧
    0 ∈ flagsWritten (.adiw 24 0) ∧ 5 ∉ flagsWritten (.adiw 24 0) := by decide

theorem witness_ExecuteFaultsExactlyWhenAnOperandIsOutside :
    (∃ a ∈ operandAddresses (.adiw 24 5), (smallCore 25 0).cfg.dataCapacity ≤ a) ∧
    (∀ a ∈ operandAddresses (.adiw 24 5), a < (smallCore 26 0).cfg.dataCapacity) := by
  exact ⟨⟨25, by decide, by decide⟩, by decide⟩

/-- Of StepRunsTheDecodedInstruction, both clauses, and KnownWordsCompleteWithAFullRegisterFile at the boundary of 32 cells. -/
theorem witness_StepRunsTheDecodedInstruction :
    adding.phase = .idle ∧ progRead adding adding.pc.toNat = .ok 0x0F01 ∧
    decode adding.cfg 0x0F01 = .ok (.add 16 17) ∧
    nextAnd (exec (.add 16 17) { adding with ir := 0x0F01, phase := .executing }) (fun _ => true) ∧
    progRead (smallCore 16 0x0F01) 0 = .ok 0x0F01 ∧
    isFault (exec (.add 16 17) { smallCore 16 0x0F01 with ir := 0x0F01, phase := .executing }) .outOfBounds ∧
    32 ≤ (smallCore 32 0x0F01).cfg.dataCapacity ∧ (smallCore 32 0x0F01).phase = .idle ∧
    progRead (smallCore 32 0x0F01) 0 = .ok 0x0F01 ∧ decode (smallCore 32 0x0F01).cfg 0x0F01 = .ok (.add 16 17) ∧
    (smallCore 16 0x0F01).phase = .idle ∧ decode (smallCore 16 0x0F01).cfg 0x0F01 = .ok (.add 16 17) := by decide

/-- Of FetchFailsExactlyPastTheProgramStore, both sides of the boundary. -/
theorem witness_FetchFailsExactlyPastTheProgramStore :
    pastTheEnd.phase = .idle ∧ pastTheEnd.cfg.progCapacity ≤ pastTheEnd.pc.toNat ∧
    lastWord.phase = .idle ∧ lastWord.pc.toNat < lastWord.cfg.progCapacity := by decide

/-- Step transactions of each result, from legal states with legal configurations: of
InstructionRegisterHoldsTheFetchedWord, OnlyACompletedStepAdvancesThePc, StepResultAndPhase, StateAfterAFault,
FaultIsPermanent, StepKeepsTheStateLegal, StepKeepsConfigurationProgramAndEeprom, StepLeavesIoSpaceAndSram,
SignIsNegativeXorOverflow and EveryRunEndsInAFault. -/
theorem witness_step_transactions :
    (∃ t, step adding = .next t ∧ stepTransaction adding = .ok (t, .ok)) ∧ adding.Wf ∧
    (∃ t, step lastWord = .next t ∧ stepTransaction lastWord = .ok (t, .ok)) ∧ lastWord.Wf ∧
    lastWord.pc.toNat = lastWord.cfg.progCapacity - 1 ∧ progRead lastWord lastWord.pc.toNat = .ok 0x0F01 ∧
    stepTransaction pastTheEnd = .ok (pastTheEnd, .fault .outOfBounds) ∧ pastTheEnd.Wf ∧
    pastTheEnd.cfg.progCapacity ≤ pastTheEnd.pc.toNat ∧
    stepTransaction unknownNext = .ok (unknownNext, .fault .unknownOpcode) ∧ unknownNext.Wf ∧
    progRead unknownNext unknownNext.pc.toNat = .ok 0x9700 := by
  refine ⟨⟨_, rfl, rfl⟩, by decide, ⟨_, rfl, rfl⟩, by decide, by decide, by decide, by decide, by decide, ?_⟩
  decide

theorem witness_StepLeavesIoSpaceAndSram : 32 ≤ 96 ∧ 96 ≠ adding.cfg.sregAddr ∧ 32 ≠ adding.cfg.sregAddr := by decide

/-- Of UnknownWordEndsTheStep, and TwoFaultsWithTheirConditions for the fetch, the decode and both execute faults. -/
theorem witness_UnknownWordEndsTheStep :
    unknownNext.phase = .idle ∧ progRead unknownNext unknownNext.pc.toNat = .ok 0x9700 ∧
    decode unknownNext.cfg 0x9700 = .error .unknownOpcode ∧ isFault (step unknownNext) .unknownOpcode ∧
    pastTheEnd.phase = .idle ∧ isFault (step pastTheEnd) .outOfBounds ∧
    (smallCore 16 0x0F01).phase = .idle ∧ isFault (step (smallCore 16 0x0F01)) .outOfBounds ∧
    (smallCore 25 0x9605).phase = .idle ∧ isFault (step (smallCore 25 0x9605)) .outOfBounds := by decide

theorem witness_StepIsRefusedOnlyInFlight :
    adding.phase = .idle ∧ { adding with phase := .executing }.phase = .executing := by decide

theorem witness_NewStateIsLegal : Config.default.Wf ∧ { Config.default with progCapacity := 65535 }.Wf := by decide

/-- Of TransferAndInterruptBitsAreInert: both bits, a completed step and a fault. -/
theorem witness_TransferAndInterruptBitsAreInert :
    adding.cfg.Wf ∧ (0xC0#8) &&& 0x3F#8 = 0#8 ∧ nextAnd (step adding) (fun _ => true) ∧
    isFault (step unknownNext) .unknownOpcode := by decide

/-- Of ReachableSessionsAreLegal: a session that loaded a program and ran its first instruction. -/
theorem witness_ReachableSessionsAreLegal : ∃ h : Session, Reachable h ∧ h.stepped = true ∧ h.core.pc = 1 := by
  have h0 := Reachable.new Config.default (by decide)
  have h1 := Reachable.transact _ _ (.loadProgram [0xCF, 0x96]) _ h0 rfl
  exact ⟨_, Reachable.transact _ _ .step _ h1 rfl, rfl, rfl⟩

/-- Of TransactionsKeepASessionQuiet: a quiet session that is no newly constructed one, and its answered transactions. -/
theorem witness_TransactionsKeepASessionQuiet :
    let h : Session := { core := { adding with sreg := 0x14 }, stepped := false }
    Config.default.Wf ∧ QuietSession h ∧ (∃ h' r, transact h .step = .ok (h', r) ∧ h'.core.pc = 1) ∧
    ∃ h' r, transact h (.loadProgram [0x08, 0x0F]) = .ok (h', r) := by
  refine ⟨by decide, ⟨by decide, by decide, by decide, by decide, fun a h1 h2 h3 => ?_⟩, ⟨_, _, rfl, rfl⟩, ⟨_, _, rfl⟩⟩
  have hc : cell adding.data a = 0#8 :=
    cell_of_forall_ne fun c hc => Nat.ne_of_lt (Nat.lt_of_lt_of_le ((by decide : ∀ c ∈ adding.data, c.1 < 32) c hc) h1)
  simp only [dataRead, boundedRead, if_neg h3, if_pos h2]
  exact congrArg _ hc

/-- Of StepDependsOnPcWordFlagsAndRegisters: two states that differ in EEPROM, IR, SRAM and another program word. -/
theorem witness_StepDependsOnPcWordFlagsAndRegisters :
    let other : State := { adding with
      eeprom := [(3, 7)], ir := 0xFFFF, prog := [(0, 0x0F01), (9, 0x9601)], data := [(16, 0x7F), (17, 0x01), (100, 5)] }
    adding.cfg.Wf ∧ StoresWf adding ∧ StoresWf other ∧ other.cfg = adding.cfg ∧ other.phase = adding.phase ∧
    other.pc = adding.pc ∧ other.sreg = adding.sreg ∧
    progRead other other.pc.toNat = progRead adding adding.pc.toNat ∧
    (∀ a < 32, dataRead other a = dataRead adding a) ∧
    (∃ t, stepTransaction adding = .ok (t, .ok)) := by
  refine ⟨by decide, by decide, by decide, rfl, rfl, rfl, rfl, rfl, by decide, ⟨_, rfl⟩⟩

/-- Of BoundedWriteReplacesOneCell and DataWriteIsReadBack: the first address outside and the last inside, and SREG's. -/
theorem witness_BoundedWriteReplacesOneCell :
    Memory.Wf ([(3, 1#8)] : Memory 8) ∧ Memory.Within 351 ([(3, 1#8)] : Memory 8) ∧ 351 ≤ 351 ∧ 350 < 351 ∧
    StoresWf adding ∧ 350 < adding.cfg.dataCapacity ∧ adding.cfg.dataCapacity ≤ 351 ∧
    adding.cfg.sregAddr < adding.cfg.dataCapacity ∧ 350 ≠ adding.cfg.sregAddr := by decide

theorem witness_StoresAreIsolated :
    (∃ t, dataWrite adding 100 7 = .ok t) ∧ (∃ t, loadProgram adding [1, 2, 3] = some t) ∧
    (∃ t, loadEeprom adding [1] = some t) := ⟨⟨_, rfl⟩, ⟨_, rfl⟩, ⟨_, rfl⟩⟩

theorem witness_ConstructionLeavesZeros :
    350 < Config.default.dataCapacity ∧ 4095 < Config.default.progCapacity ∧ 511 < Config.default.eepromCapacity := by decide

/-- Of UnloadedCoreFaultsAtOnce: the default configuration, and one without program words. -/
theorem witness_UnloadedCoreFaultsAtOnce :
    Config.default.opcAdd ≠ 0 ∧ Config.default.opcAdc ≠ 0 ∧ Config.default.opcAnd ≠ 0 ∧ Config.default.opcAdiw ≠ 0 ∧
    0 < Config.default.progCapacity ∧ { Config.default with progCapacity := 0 }.progCapacity = 0 := by decide

/-- Of the two load statements: a buffer that just fits and one byte more, in a core of 2 words and 2 EEPROM cells. -/
theorem witness_loads :
    let s := State.new { Config.default with progCapacity := 2, eepromCapacity := 2 }
    ([1, 2, 3, 4] : List Byte).length ≤ 2 * s.cfg.progCapacity ∧ 2 * s.cfg.progCapacity < ([1, 2, 3, 4, 5] : List Byte).length ∧
    ([1, 2] : List Byte).length ≤ s.cfg.eepromCapacity ∧ s.cfg.eepromCapacity < ([1, 2, 3] : List Byte).length ∧
    1 < s.cfg.progCapacity ∧ 1 < s.cfg.eepromCapacity := by decide

/-- Of LoadsOnlyBeforeTheFirstStep: a failed first step, then a hook; and a session before its first step. -/
theorem witness_LoadsOnlyBeforeTheFirstStep :
    (∃ h₁ h₂ : Session, transact (Session.new Config.default) .step = .ok (h₁, .fault .unknownOpcode) ∧
      Later h₁ h₂ ∧ h₂.core.phase = .idle) ∧
    (Session.new Config.default).stepped = false ∧ (Session.new Config.default).core.phase = .idle := by
  refine ⟨⟨_, _, rfl, Later.transact _ _ .peekFlags _ (Later.refl ) rfl, rfl⟩, rfl, rfl⟩

/-- Of the two hook statements: readable addresses, the first invalid ones, SREG's place. -/
theorem witness_hooks :
    (Session.new Config.default).core.phase = .idle ∧ dataRead State.reset 31 = .ok 0 ∧ dataRead State.reset 350 = .ok 0 ∧
    eepromRead State.reset 511 = .ok 0 ∧ State.reset.cfg.sregAddr < State.reset.cfg.dataCapacity ∧
    (32 ≤ 32 ∨ State.reset.cfg.dataCapacity ≤ 32) ∧ State.reset.cfg.dataCapacity ≤ 351 ∧
    State.reset.cfg.eepromCapacity ≤ 512 ∧ Request.peekFlags ≠ .step ∧
    transact (Session.new Config.default) .peekFlags = .ok (Session.new Config.default, .byte 0) := by decide

end Sys2Proof.Tests
end

section
/-! The two-register format (R53, R57): what a decoded word is, and that `encodeRR` writes the operands where the decoder
reads them. -/

namespace Sys2Proof

/-- What a word that decodes can be: the row of R57 that answered, with every earlier row excluded. -/
theorem decode_cases {c : Config} {w : Word} {i : Instr} (h : decode c w = .ok i) :
    (w.toNat / 256 = c.opcAdiw.toNat ∧ i = .adiw (fieldP w) (fieldK w)) ∨
    (w.toNat / 256 ≠ c.opcAdiw.toNat ∧
      ((w.toNat / 1024 = c.opcAdd.toNat ∧ i = .add (fieldD w) (fieldR w)) ∨
       (w.toNat / 1024 ≠ c.opcAdd.toNat ∧ w.toNat / 1024 = c.opcAdc.toNat ∧ i = .adc (fieldD w) (fieldR w)) ∨
       (w.toNat / 1024 ≠ c.opcAdd.toNat ∧ w.toNat / 1024 ≠ c.opcAdc.toNat ∧ w.toNat / 1024 = c.opcAnd.toNat ∧
         i = .and (fieldD w) (fieldR w)))) := by
  rw [decode_eq] at h
  split at h
  case isTrue hw => exact .inl ⟨hw, (Except.ok.inj h).symm⟩
  case isFalse hw =>
    refine .inr ⟨hw, ?_⟩
    split at h
    case isTrue hadd => exact .inl ⟨hadd, (Except.ok.inj h).symm⟩
    case isFalse hadd =>
      split at h
      case isTrue hadc => exact .inr (.inl ⟨hadd, hadc, (Except.ok.inj h).symm⟩)
      case isFalse hadc =>
        split at h
        case isTrue hand => exact .inr (.inr ⟨hadd, hadc, hand, (Except.ok.inj h).symm⟩)
        case isFalse => cases h

/-- In every configuration the operands of a decoded instruction are the fields of its format (R53, R54). -/
theorem operands_of_decode {c : Config} {w : Word} {i : Instr} (h : decode c w = .ok i) :
    match i with
    | .adiw p k => p = fieldP w ∧ k = fieldK w
    | .add d r => d = fieldD w ∧ r = fieldR w
    | .adc d r => d = fieldD w ∧ r = fieldR w
    | .and d r => d = fieldD w ∧ r = fieldR w := by
  obtain ⟨-, rfl⟩ | ⟨-, ⟨-, rfl⟩ | ⟨-, -, rfl⟩ | ⟨-, -, -, rfl⟩⟩ := decode_cases h
  · exact ⟨rfl, rfl⟩
  · exact ⟨rfl, rfl⟩
  · exact ⟨rfl, rfl⟩
  · exact ⟨rfl, rfl⟩

/-- The case of `operands_of_decode` for format RR, whichever of its three opcodes the word has. -/
theorem operands_of_decode_rr {c : Config} {w : Word} {d r : RegIdx}
    (h : decode c w = .ok (.add d r) ∨ decode c w = .ok (.adc d r) ∨ decode c w = .ok (.and d r)) :
    d = fieldD w ∧ r = fieldR w := by
  obtain hadd | hadc | hand := h
  · exact operands_of_decode hadd
  · exact operands_of_decode hadc
  · exact operands_of_decode hand

section EncodeRR
variable (o : BitVec 6) (d r : RegIdx)

@[simp] theorem fieldD_encodeRR : fieldD (encodeRR o d r) = d := by
  apply BitVec.eq_of_toNat_eq
  rw [fieldD_toNat, encodeRR_toNat]
  omega

@[simp] theorem fieldR_encodeRR : fieldR (encodeRR o d r) = r := by
  apply BitVec.eq_of_toNat_eq
  rw [fieldR_toNat, encodeRR_toNat]
  omega

/-- The opcode stands in bits 15:10 of the encoded word. -/
@[simp] theorem encodeRR_opcode : (encodeRR o d r).toNat / 1024 = o.toNat := by
  rw [encodeRR_toNat]
  omega

end EncodeRR

/-- An encoded two-register word is no ADIW word when OPC_ADIW does not begin with its opcode. -/
theorem encodeRR_ne_opcAdiw {c : Config} {o : BitVec 6} (h : c.opcAdiw.toNat / 4 ≠ o.toNat) (d r : RegIdx) :
    (encodeRR o d r).toNat / 256 ≠ c.opcAdiw.toNat := by
  intro e
  have : (encodeRR o d r).toNat / 1024 = o.toNat := encodeRR_opcode o d r
  omega

/-- Decoding an encoded two-register word compares its opcode alone and gives back its operands. -/
theorem decode_encodeRR {c : Config} {o : BitVec 6} (h : c.opcAdiw.toNat / 4 ≠ o.toNat) (d r : RegIdx) :
    decode c (encodeRR o d r) =
      if o = c.opcAdd then .ok (.add d r)
      else if o = c.opcAdc then .ok (.adc d r)
      else if o = c.opcAnd then .ok (.and d r)
      else .error .unknownOpcode := by
  simp only [decode_eq, if_neg (encodeRR_ne_opcAdiw h d r), encodeRR_opcode, fieldD_encodeRR, fieldR_encodeRR,
    BitVec.toNat_inj]

/-- Settles O2: the fields are the decoder's own, and the word `encodeRR` builds is a word for each pair. -/
theorem twoRegisterOperandFields : Obligations.TwoRegisterOperandFields := by
  constructor
  · intro c w d r h
    obtain ⟨rfl, rfl⟩ := operands_of_decode_rr h
    exact ⟨fieldD_toNat w, fieldR_toNat w⟩
  · rintro c d r ⟨-, -, hadc, hand, hand'⟩ hadiw
    refine ⟨encodeRR c.opcAdd d r, encodeRR c.opcAdc d r, encodeRR c.opcAnd d r, ?_, ?_, ?_,
      encodeRR_opcode .., encodeRR_opcode .., encodeRR_opcode ..⟩
    · rw [decode_encodeRR (hadiw _ (by simp)), if_pos rfl]
    · rw [decode_encodeRR (hadiw _ (by simp)), if_neg hadc.symm, if_pos rfl]
    · rw [decode_encodeRR (hadiw _ (by simp)), if_neg hand.symm, if_neg hand'.symm, if_pos rfl]

end Sys2Proof
end

section
/-! The step cycle (R70 to R73, R77 to R79): how a step ends at each of its stages, what it leaves in the fields no instruction
computes, and what the step transaction answers. -/

namespace Sys2Proof.Machine

variable {s t : State} {res : StepResult} {f : Fault}

/-! ### The fetch and the decode -/

/-- A fetched word outside the catalogue ends the step with the decoder's rejection (R73). -/
theorem step_of_unknownWord {w : Word} (hp : s.phase = .idle) (hw : progRead s s.pc.toNat = .ok w)
    (hd : decode s.cfg w = .error .unknownOpcode) : step s = .fault .unknownOpcode := by
  obtain ⟨hlt, rfl⟩ := progRead_ok hw
  simp [step, hp, fetch_of_lt hlt, decodeFetched, hd]

/-- A PC outside the program store ends the step at its fetch (R71). -/
theorem step_of_pc_ge (hp : s.phase = .idle) (hpc : s.cfg.progCapacity ≤ s.pc.toNat) :
    step s = .fault .outOfBounds := by
  simp [step, hp, fetch_of_ge hpc]

/-! ### A completed step -/

/-- What a completed step does to the fields no instruction computes: the PC advances, the IR holds the fetched word, and
the phase is Idle again. -/
theorem step_next_fields (h : step s = .next t) :
    t.cfg = s.cfg ∧ t.prog = s.prog ∧ t.eeprom = s.eeprom ∧ t.ir = cell s.prog s.pc.toNat ∧ t.phase = .idle ∧
      t.pc = s.pc + 1#16 := by
  obtain ⟨-, -, i, u, -, hexec, rfl⟩ := step_next h
  obtain ⟨hcfg, hprog, heeprom, hir, -, hpc⟩ := exec_next_fields hexec
  exact ⟨hcfg, hprog, heeprom, hir, rfl, hpc⟩

/-- The advance of R78 does not wrap: a completed step fetched below PROG_CAPACITY, which fits the PC (R4). -/
theorem step_next_advances (hc : s.cfg.progCapacity ≤ 65535) (h : step s = .next t) :
    s.pc.toNat < s.cfg.progCapacity ∧ t.cfg = s.cfg ∧ t.pc.toNat = s.pc.toNat + 1 := by
  obtain ⟨-, hlt, -⟩ := step_next h
  obtain ⟨hcfg, -, -, -, -, hpc⟩ := step_next_fields h
  refine ⟨hlt, hcfg, ?_⟩
  rw [hpc, BitVec.toNat_add, BitVec.toNat_ofNat]
  omega

/-! ### A failed step -/

/-- A failed step changes nothing but the IR (R72, R79). -/
theorem takeFault_eq_with_ir (hp : s.phase = .idle) : takeFault s = { s with ir := (takeFault s).ir } := by
  obtain h | h := takeFault_of_idle hp <;> rw [h]

theorem takeFault_of_pc_ge (hp : s.phase = .idle) (hpc : s.cfg.progCapacity ≤ s.pc.toNat) : takeFault s = s := by
  rw [takeFault_of_ge hpc, ← hp]

theorem takeFault_of_progRead {w : Word} (hp : s.phase = .idle) (hw : progRead s s.pc.toNat = .ok w) :
    takeFault s = { s with ir := w } := by
  obtain ⟨hlt, rfl⟩ := progRead_ok hw
  rw [takeFault_of_lt hlt, ← hp]

/-! ### The transaction -/

theorem stepTransaction_of_fault (h : step s = .fault f) : stepTransaction s = .ok (takeFault s, .fault f) := by
  simp [stepTransaction, h]

/-- A transaction that answers a fault is a failed step. -/
theorem stepTransaction_fault (h : stepTransaction s = .ok (t, .fault f)) :
    s.phase = .idle ∧ step s = .fault f ∧ t = takeFault s := by
  obtain ⟨hp, ⟨-, hres⟩ | ⟨g, hstep, hres, ht⟩⟩ := stepTransaction_ok h
  · cases hres
  · cases hres
    exact ⟨hp, hstep, ht⟩

/-- After a failed step the state is the one before, but for the IR. -/
theorem stepTransaction_fault_eq_with_ir (h : stepTransaction s = .ok (t, .fault f)) : t = { s with ir := t.ir } := by
  obtain ⟨hp, -, rfl⟩ := stepTransaction_fault h
  exact takeFault_eq_with_ir hp

/-- Completed or failed, a step leaves the fetched word in the IR. -/
theorem stepTransaction_ir {w : Word} (h : stepTransaction s = .ok (t, res)) (hw : progRead s s.pc.toNat = .ok w) :
    t.ir = w := by
  obtain ⟨hp, ⟨hstep, -⟩ | ⟨f, -, -, rfl⟩⟩ := stepTransaction_ok h
  · obtain ⟨-, -, -, hir, -, -⟩ := step_next_fields hstep
    rw [hir, (progRead_ok hw).2]
  · rw [takeFault_of_progRead hp hw]

/-- Completed or failed, a step leaves the core Idle. -/
theorem stepTransaction_phase (h : stepTransaction s = .ok (t, res)) : t.phase = .idle := by
  obtain ⟨hp, ⟨hstep, -⟩ | ⟨f, -, -, rfl⟩⟩ := stepTransaction_ok h
  · obtain ⟨-, -, -, -, hphase, -⟩ := step_next_fields hstep
    exact hphase
  · rw [takeFault_eq_with_ir hp]
    exact hp

/-- The transaction answers ok exactly when the step completes with the state the transaction leaves. -/
theorem stepTransaction_ok_iff (h : stepTransaction s = .ok (t, res)) : res = .ok ↔ step s = .next t := by
  obtain ⟨-, ⟨hstep, rfl⟩ | ⟨f, hstep, rfl, -⟩⟩ := stepTransaction_ok h
  · exact iff_of_true rfl hstep
  · simp [hstep]

end Sys2Proof.Machine
end

section
/-! The statements of the step cycle (40_step_cycle.md). -/

namespace Sys2Proof.Machine

/-- Settles O24, by the two sides of the comparison of the PC with PROG_CAPACITY. -/
theorem fetchFailsExactlyPastTheProgramStore : Obligations.FetchFailsExactlyPastTheProgramStore := by
  intro s hp
  constructor
  · intro hge
    refine ⟨fetch_of_ge hge, ?_⟩
    rw [stepTransaction_of_fault (step_of_pc_ge hp hge), takeFault_of_pc_ge hp hge]
  · intro hlt
    exact ⟨_, progRead_of_lt hlt, fetch_of_lt hlt⟩

/-- Settles O25: the IR after any step, and the state after a failed one. -/
theorem instructionRegisterHoldsTheFetchedWord : Obligations.InstructionRegisterHoldsTheFetchedWord := by
  intro s t res h
  refine ⟨fun w hw => stepTransaction_ir h hw, ?_⟩
  rintro f rfl
  exact stepTransaction_fault_eq_with_ir h

/-- Settles O26: the decoder's answer is the step's, and the fetch has put the word in the IR. -/
theorem unknownWordEndsTheStep : Obligations.UnknownWordEndsTheStep := by
  intro s w hp hw hd
  rw [stepTransaction_of_fault (step_of_unknownWord hp hw hd), takeFault_of_progRead hp hw]

/-- Settles O27: a completed step fetched below PROG_CAPACITY, so its advance reaches PROG_CAPACITY at most. -/
theorem onlyACompletedStepAdvancesThePc : Obligations.OnlyACompletedStepAdvancesThePc := by
  rintro s t ⟨hc, -, -⟩
  refine ⟨fun h => ?_, fun h hlast => ?_, fun f h => ?_⟩
  · obtain ⟨hlt, hcfg, hpc⟩ := step_next_advances hc h
    exact ⟨hpc, by rw [hpc, hcfg]; omega⟩
  · obtain ⟨hlt, hcfg, hpc⟩ := step_next_advances hc h
    rw [hpc, hcfg]
    omega
  · rw [stepTransaction_fault_eq_with_ir h]

/-- Settles O28: the transaction's answer is the step's, and both endings return to Idle. -/
theorem stepResultAndPhase : Obligations.StepResultAndPhase := by
  intro s t res h
  refine ⟨stepTransaction_phase h, stepTransaction_ok_iff h, ?_⟩
  rintro f rfl
  obtain ⟨-, hstep, -⟩ := stepTransaction_fault h
  exact ⟨hstep, by rw [stepTransaction_fault_eq_with_ir h]⟩

end Sys2Proof.Machine
end

section
/-! The two additions of format RR (R86, R87): what a completed instruction leaves in its destination, and that the shared
adder meets the formulas of R85. -/

namespace Sys2Proof.Machine

open Sys2Proof.Statements

variable {alu : Byte → Byte → Byte → Byte × Byte} {d r : RegIdx} {vd vr : Byte} {s : State}

/-! ### The destination of format RR -/

/-- No general register is SREG's place, which a legal configuration has in the I/O region (R4, R10). -/
theorem regIdx_ne_sregAddr {c : Config} (hc : c.Wf) (d : RegIdx) : d.toNat ≠ c.sregAddr := by
  obtain ⟨-, ⟨hsreg, -⟩, -⟩ := hc
  have := d.isLt
  omega

/-- The destination register of a completed instruction of format RR reads as the computed result. -/
theorem dataRead_rrState_dest (hc : s.cfg.Wf) (hs : StoresWf s) (hd : d.toNat < s.cfg.dataCapacity) :
    dataRead (rrState alu d vd vr s) d.toNat = .ok (alu vd vr s.sreg).1 := by
  obtain ⟨⟨hdata, -, -⟩, -, -⟩ := hs
  have hne := regIdx_ne_sregAddr hc d
  rw [dataRead_of_lt (by simpa using hd), if_neg (by simpa using hne), rrState_data alu d vd vr s hne,
    cell_setCell_same hdata]

/-! ### The shared adder -/

/-- The adder's result and status byte are those of R85. -/
theorem add8_formulas (vd vr : Byte) (cin : Bool) (sreg : Byte) :
    Add8Formulas vd vr cin sreg (add8 vd vr cin sreg).1 (add8 vd vr cin sreg).2 := by
  refine ⟨add8_toNat .., sregOf_bit0 .., ?_, sregOf_bit2 .., sregOf_bit3 .., ?_, sregOf_bit5 .., sregOf_bit6 ..,
    sregOf_bit7 ..⟩
  · exact (sregOf_bit1 ..).trans (beq_zero8 _)
  · simp only [add8, sregOf_bit2, sregOf_bit3, sregOf_bit4]

/-- Format RR over the adder completes with the sum in the destination, the flags of R85 and the PC advanced, for any
carry-in taken from the old status byte. -/
theorem execRR_add8_completes (cin : Byte → Bool) (hc : s.cfg.Wf) (hs : StoresWf s)
    (hd : dataRead s d.toNat = .ok vd) (hr : dataRead s r.toNat = .ok vr) :
    ∃ t res, execRR (fun vd vr sreg => add8 vd vr (cin sreg) sreg) d r s = .next t ∧ dataRead t d.toNat = .ok res ∧
      Add8Formulas vd vr (cin s.sreg) s.sreg res t.sreg ∧ t.pc = s.pc + 1 :=
  ⟨_, _, execRR_completes hd hr, dataRead_rrState_dest hc hs (dataRead_ok hd).1, add8_formulas .., rfl⟩

/-! ### The statements of 41_add.md -/

/-- Settles O8: format RR over the adder with carry-in 0, and the word of R63 for ADD. -/
theorem addFollowsItsRule : Obligations.AddFollowsItsRule := by
  refine ⟨fun s d r vd vr hc hs hd hr => ?_, fun s d r h => ?_, fun d r => ?_⟩
  · exact execRR_add8_completes (fun _ => false) hc hs hd hr
  · exact execRR_faults h
  · have hadiw : Config.default.opcAdiw.toNat / 4 ≠ Config.default.opcAdd.toNat := by decide
    exact (decode_encodeRR hadiw d r).trans (if_pos rfl)

/-- Settles O9: format RR over the adder with carry-in SREG.C, and the word of R63 for ADC. -/
theorem adcFollowsItsRule : Obligations.AdcFollowsItsRule := by
  refine ⟨fun s d r vd vr hc hs hd hr => ?_, fun s d r h => ?_, fun d r => ?_⟩
  · exact execRR_add8_completes (flag .c) hc hs hd hr
  · exact execRR_faults h
  · have hadiw : Config.default.opcAdiw.toNat / 4 ≠ Config.default.opcAdc.toNat := by decide
    have hadd : Config.default.opcAdc ≠ Config.default.opcAdd := by decide
    exact (decode_encodeRR hadiw d r).trans ((if_neg hadd).trans (if_pos rfl))

end Sys2Proof.Machine
end

section
/-! The word-immediate format (R54, R57): `encodeWI` writes the pair and the immediate where the decoder reads them. -/

namespace Sys2Proof

section EncodeWI
variable (o : BitVec 8) {p : RegIdx} (k : BitVec 6)

@[simp] theorem fieldP_encodeWI (hp : IsPairLow p) : fieldP (encodeWI o p k) = p := by
  have hpair : ∀ p : RegIdx, IsPairLow p → 24 + 2 * ((p.toNat - 24) / 2 % 4) = p.toNat := by decide
  have hfield : (encodeWI o p k).toNat / 16 % 4 = (p.toNat - 24) / 2 % 4 := by
    rw [encodeWI_toNat o p k hp]
    omega
  apply BitVec.eq_of_toNat_eq
  rw [fieldP_toNat, hfield, hpair p hp]

@[simp] theorem fieldK_encodeWI (hp : IsPairLow p) : fieldK (encodeWI o p k) = k := by
  apply BitVec.eq_of_toNat_eq
  rw [fieldK_toNat, encodeWI_toNat o p k hp]
  omega

/-- The opcode stands in bits 15:8 of the encoded word. -/
@[simp] theorem encodeWI_opcode (hp : IsPairLow p) : (encodeWI o p k).toNat / 256 = o.toNat := by
  rw [encodeWI_toNat o p k hp]
  omega

end EncodeWI

/-- An encoded ADIW word decodes to its ADIW in every configuration: its entry is the first of the table (R56). -/
theorem decode_encodeWI (c : Config) {p : RegIdx} (hp : IsPairLow p) (k : BitVec 6) :
    decode c (encodeWI c.opcAdiw p k) = .ok (.adiw p k) := by
  rw [decode_eq, if_pos (encodeWI_opcode _ _ hp), fieldP_encodeWI _ _ hp, fieldK_encodeWI _ _ hp]

/-! ### The pair field -/

/-- The low register of the pair that the 2-bit field `q` names (R54). -/
abbrev pairLow (q : BitVec 2) : RegIdx := BitVec.ofNat 5 (24 + 2 * q.toNat)

theorem isPairLow_pairLow (q : BitVec 2) : IsPairLow (pairLow q) := by
  revert q; decide

/-- The encoder writes the pair `q` names as `q` itself. -/
theorem encodeWI_pairLow (o : BitVec 8) (q : BitVec 2) (k : BitVec 6) :
    encodeWI o (pairLow q) k = o ++ k.extractLsb' 4 2 ++ q ++ k.extractLsb' 0 4 := by
  have hq : ∀ q : BitVec 2, (pairLow q - 24#5).extractLsb' 1 2 = q := by decide
  rw [encodeWI, hq]

end Sys2Proof
end

section
/-! ADIW (R90): what a completed instruction of format WI leaves in the two registers of its pair, that the word adder meets
the formulas of R90, and how a fault in Execute ends a step. -/

namespace Sys2Proof.Machine

open Sys2Proof.Statements

variable {alu : Word → BitVec 6 → Byte → Word × Byte} {p : RegIdx} {k : BitVec 6} {vd : Word} {s : State}

/-! ### The pair of format WI -/

/-- The high register of a pair is at most 31, so it is not SREG's place in a legal configuration (R4, R13). -/
theorem pairHigh_ne_sregAddr {c : Config} (hc : c.Wf) (hp : IsPairLow p) : p.toNat + 1 ≠ c.sregAddr := by
  obtain ⟨-, ⟨hsreg, -⟩, -⟩ := hc
  have hle : ∀ p : RegIdx, IsPairLow p → p.toNat ≤ 30 := by decide
  have := hle p hp
  omega

section Destinations
variable (hc : s.cfg.Wf) (hs : StoresWf s) (hp : IsPairLow p) (hcap : p.toNat + 1 < s.cfg.dataCapacity)
include hc hs hp hcap

/-- The low register of a completed instruction of format WI reads as the low byte of the computed result: the write of the
high register does not reach it. -/
theorem dataRead_wiState_low :
    dataRead (wiState alu p k vd s) p.toNat = .ok ((alu vd k s.sreg).1.extractLsb' 0 8) := by
  obtain ⟨⟨hdata, -, -⟩, -, -⟩ := hs
  have hlow := regIdx_ne_sregAddr hc p
  have hhigh := pairHigh_ne_sregAddr hc hp
  rw [dataRead_of_lt (by simpa using Nat.lt_of_succ_lt hcap), if_neg (by simpa using hlow),
    wiState_data alu p k vd s hlow hhigh, cell_setCell_of_ne (Nat.ne_add_one _),
    cell_setCell_same hdata]

/-- The high register of a completed instruction of format WI reads as the high byte of the computed result. -/
theorem dataRead_wiState_high :
    dataRead (wiState alu p k vd s) (p.toNat + 1) = .ok ((alu vd k s.sreg).1.extractLsb' 8 8) := by
  obtain ⟨⟨hdata, -, -⟩, -, -⟩ := hs
  have hlow := regIdx_ne_sregAddr hc p
  have hhigh := pairHigh_ne_sregAddr hc hp
  rw [dataRead_of_lt (by simpa using hcap), if_neg (by simpa using hhigh),
    wiState_data alu p k vd s hlow hhigh, cell_setCell_same (setCell_wf hdata _ _)]

end Destinations

/-! ### The word adder -/

/-- The word adder's result and status byte are those of R90. -/
theorem addW_formulas (vd : Word) (k : BitVec 6) (sreg : Byte) :
    AddWFormulas vd k sreg (addW vd k sreg).1 (addW vd k sreg).2 := by
  refine ⟨addW_toNat .., sregOf_bit0 .., ?_, sregOf_bit2 .., sregOf_bit3 .., ?_, sregOf_bit5 .., sregOf_bit6 ..,
    sregOf_bit7 ..⟩
  · exact (sregOf_bit1 ..).trans (beq_zero16 _)
  · simp only [addW, sregOf_bit2, sregOf_bit3, sregOf_bit4]

/-- Format WI over the word adder completes with the 16-bit sum in the pair, the flags of R90 and the PC advanced. -/
theorem execWI_addW_completes {lo hi : Byte} (hc : s.cfg.Wf) (hs : StoresWf s) (hp : IsPairLow p)
    (hlo : dataRead s p.toNat = .ok lo) (hhi : dataRead s (p.toNat + 1) = .ok hi) :
    ∃ t res, execWI addW p k s = .next t ∧
      dataRead t p.toNat = .ok (res.extractLsb' 0 8) ∧ dataRead t (p.toNat + 1) = .ok (res.extractLsb' 8 8) ∧
      AddWFormulas (hi ++ lo) k s.sreg res t.sreg ∧ t.pc = s.pc + 1 := by
  obtain ⟨hcap, -⟩ := dataRead_ok hhi
  exact ⟨_, _, execWI_completes hlo hhi, dataRead_wiState_low hc hs hp hcap, dataRead_wiState_high hc hs hp hcap,
    addW_formulas .., rfl⟩

/-! ### A fault in Execute -/

/-- The fault of the decoded instruction is the step's (R79, R104). -/
theorem step_of_exec_fault {w : Word} {i : Instr} {f : Fault} (hp : s.phase = .idle)
    (hw : progRead s s.pc.toNat = .ok w) (hd : decode s.cfg w = .ok i)
    (he : exec i { s with ir := w, phase := .executing } = .fault f) : step s = .fault f := by
  obtain ⟨hlt, rfl⟩ := progRead_ok hw
  simp [step, hp, fetch_of_lt hlt, decodeFetched, hd, he, returnToIdle]

/-- A fault of the decoded instruction leaves the state as it was, but for the fetched word in the IR (R105). -/
theorem stepTransaction_of_exec_fault {w : Word} {i : Instr} {f : Fault} (hp : s.phase = .idle)
    (hw : progRead s s.pc.toNat = .ok w) (hd : decode s.cfg w = .ok i)
    (he : exec i { s with ir := w, phase := .executing } = .fault f) :
    stepTransaction s = .ok ({ s with ir := w }, .fault f) := by
  rw [stepTransaction_of_fault (step_of_exec_fault hp hw hd he), takeFault_of_progRead hp hw]

/-! ### The statement of 42_adiw.md -/

/-- Settles O10: format WI over the word adder, its one fault in `exec` and in the step, and the word of R63. -/
theorem adiwFollowsItsRule : Obligations.AdiwFollowsItsRule := by
  refine ⟨fun s p k lo hi hc hs hp hlo hhi => ?_, fun s p k h => ?_, fun s w p k hp hw hd h => ?_, fun q k => ?_⟩
  · exact execWI_addW_completes hc hs hp hlo hhi
  · exact execWI_faults h
  · exact stepTransaction_of_exec_fault hp hw hd (execWI_faults h)
  · rw [← encodeWI_pairLow]
    exact decode_encodeWI Config.default (isPairLow_pairLow q) k

end Sys2Proof.Machine
end

section
/-! The bitwise AND of format RR (R95): that `and8` meets the formulas of R95, and what a completed AND leaves. -/

namespace Sys2Proof.Machine

open Sys2Proof.Statements

/-- The result and the status byte of `and8` are those of R95: V is clear, and C, H, T and I are the old ones. -/
theorem and8_formulas (vd vr sreg : Byte) : And8Formulas vd vr sreg (and8 vd vr sreg).1 (and8 vd vr sreg).2 := by
  refine ⟨fun j _ => BitVec.getLsbD_and, sregOf_bit0 .., ?_, sregOf_bit2 .., sregOf_bit3 .., ?_, sregOf_bit5 ..,
    sregOf_bit6 .., sregOf_bit7 ..⟩
  · exact (sregOf_bit1 ..).trans (beq_zero8 _)
  · simp only [and8, sregOf_bit2, sregOf_bit3, sregOf_bit4]

/-- AND completes with the bitwise AND in the destination, the flags of R95 and the PC advanced. -/
theorem execAnd_completes {d r : RegIdx} {vd vr : Byte} {s : State} (hc : s.cfg.Wf) (hs : StoresWf s)
    (hd : dataRead s d.toNat = .ok vd) (hr : dataRead s r.toNat = .ok vr) :
    ∃ t res, execAnd d r s = .next t ∧ dataRead t d.toNat = .ok res ∧ And8Formulas vd vr s.sreg res t.sreg ∧
      t.pc = s.pc + 1 :=
  ⟨_, _, execRR_completes hd hr, dataRead_rrState_dest hc hs (dataRead_ok hd).1, and8_formulas .., rfl⟩

/-- Settles O11: format RR over `and8`, its one fault, and the word of R63 for AND. -/
theorem andFollowsItsRule : Obligations.AndFollowsItsRule := by
  refine ⟨fun s d r vd vr hc hs hd hr => ?_, fun s d r h => ?_, fun d r => ?_⟩
  · exact execAnd_completes hc hs hd hr
  · exact execRR_faults h
  · have hadiw : Config.default.opcAdiw.toNat / 4 ≠ Config.default.opcAnd.toNat := by decide
    have hadd : Config.default.opcAnd ≠ Config.default.opcAdd := by decide
    have hadc : Config.default.opcAnd ≠ Config.default.opcAdc := by decide
    exact (decode_encodeRR hadiw d r).trans ((if_neg hadd).trans ((if_neg hadc).trans (if_pos rfl)))

end Sys2Proof.Machine
end

section
/-! Faults (R100, R105): the two formats fault exactly when an operand register lies outside the data store, so a step's fault
names its stage. -/

namespace Sys2Proof.Machine

/-- A register the instruction names lies outside a data store of the given capacity (R76; the execute rows of R100's table). -/
def OperandOutside (capacity : Nat) (i : Instr) : Prop :=
  match i with
  | .adiw p _ => capacity ≤ p.toNat + 1
  | .add d r => capacity ≤ d.toNat ∨ capacity ≤ r.toNat
  | .adc d r => capacity ≤ d.toNat ∨ capacity ≤ r.toNat
  | .and d r => capacity ≤ d.toNat ∨ capacity ≤ r.toNat

/-- The two execute rows of R100's table for a decoded word, ADD, ADC and AND against ADIW. -/
theorem exists_decoded_operandOutside_iff {c : Config} {w : Word} {capacity : Nat} :
    (∃ i, decode c w = .ok i ∧ OperandOutside capacity i) ↔
      (∃ d r, (decode c w = .ok (.add d r) ∨ decode c w = .ok (.adc d r) ∨ decode c w = .ok (.and d r)) ∧
        (capacity ≤ d.toNat ∨ capacity ≤ r.toNat)) ∨
      ∃ p k, decode c w = .ok (.adiw p k) ∧ capacity ≤ p.toNat + 1 := by
  constructor
  · rintro ⟨i, hd, hout⟩
    cases i with
    | adiw p k => exact .inr ⟨p, k, hd, hout⟩
    | add d r => exact .inl ⟨d, r, .inl hd, hout⟩
    | adc d r => exact .inl ⟨d, r, .inr (.inl hd), hout⟩
    | and d r => exact .inl ⟨d, r, .inr (.inr hd), hout⟩
  · rintro (⟨d, r, hd | hd | hd, hout⟩ | ⟨p, k, hd, hout⟩)
    · exact ⟨_, hd, hout⟩
    · exact ⟨_, hd, hout⟩
    · exact ⟨_, hd, hout⟩
    · exact ⟨_, hd, hout⟩

variable {s : State} {f : Fault}

/-! ### Execute -/

theorem execRR_fault_iff {alu : Byte → Byte → Byte → Byte × Byte} {d r : RegIdx} :
    execRR alu d r s = .fault f ↔
      (s.cfg.dataCapacity ≤ d.toNat ∨ s.cfg.dataCapacity ≤ r.toNat) ∧ f = .outOfBounds := by
  constructor
  · intro h
    obtain ⟨vd, vr, -, -, he⟩ | ⟨hout, he⟩ := execRR_cases alu d r s
    · cases he.symm.trans h
    · cases he.symm.trans h
      exact ⟨hout, rfl⟩
  · rintro ⟨hout, rfl⟩
    exact execRR_faults hout

theorem execWI_fault_iff {alu : Word → BitVec 6 → Byte → Word × Byte} {p : RegIdx} {k : BitVec 6} :
    execWI alu p k s = .fault f ↔ s.cfg.dataCapacity ≤ p.toNat + 1 ∧ f = .outOfBounds := by
  constructor
  · intro h
    obtain ⟨lo, hi, -, -, he⟩ | ⟨hout, he⟩ := execWI_cases alu p k s
    · cases he.symm.trans h
    · cases he.symm.trans h
      exact ⟨hout, rfl⟩
  · rintro ⟨hout, rfl⟩
    exact execWI_faults hout

/-- An instruction faults exactly when a register it names lies outside the data store, and then with OutOfBounds (R76). -/
theorem exec_fault_iff {i : Instr} :
    exec i s = .fault f ↔ OperandOutside s.cfg.dataCapacity i ∧ f = .outOfBounds := by
  cases i with
  | adiw p k => exact execWI_fault_iff
  | add d r => exact execRR_fault_iff
  | adc d r => exact execRR_fault_iff
  | and d r => exact execRR_fault_iff

theorem returnToIdle_fault_iff {o : Outcome} : returnToIdle o = .fault f ↔ o = .fault f := by
  cases o <;> simp [returnToIdle]

/-! ### The step -/

/-- R100's table: a step in Idle faults exactly at its fetch, at its decode, or at its execute. -/
theorem step_fault_iff (hp : s.phase = .idle) :
    step s = .fault f ↔
      (s.cfg.progCapacity ≤ s.pc.toNat ∧ f = .outOfBounds) ∨
      ∃ w, progRead s s.pc.toNat = .ok w ∧
        ((decode s.cfg w = .error .unknownOpcode ∧ f = .unknownOpcode) ∨
          ∃ i, decode s.cfg w = .ok i ∧ OperandOutside s.cfg.dataCapacity i ∧ f = .outOfBounds) := by
  constructor
  · intro h
    obtain ⟨-, he⟩ | ⟨-, hge, he⟩ | ⟨-, hlt, hd, he⟩ | ⟨-, hlt, i, hd, he⟩ := step_cases s
    · cases he.symm.trans h
    · cases he.symm.trans h
      exact .inl ⟨hge, rfl⟩
    · cases he.symm.trans h
      exact .inr ⟨_, progRead_of_lt hlt, .inl ⟨hd, rfl⟩⟩
    · have hexec := returnToIdle_fault_iff.1 (he.symm.trans h)
      have hout := exec_fault_iff.1 hexec
      exact .inr ⟨_, progRead_of_lt hlt, .inr ⟨i, hd, hout⟩⟩
  · rintro (⟨hge, rfl⟩ | ⟨w, hw, ⟨hd, rfl⟩ | ⟨i, hd, hout⟩⟩)
    · exact step_of_pc_ge hp hge
    · exact step_of_unknownWord hp hw hd
    · exact step_of_exec_fault hp hw hd (exec_fault_iff.2 hout)

/-- Settles O29: R100's table, the execute rows read off the decoded instruction. -/
theorem twoFaultsWithTheirConditions : Obligations.TwoFaultsWithTheirConditions := by
  refine ⟨fun f => ?_, fun s hp => ⟨?_, ?_⟩⟩
  · cases f with
    | outOfBounds => exact .inl rfl
    | unknownOpcode => exact .inr rfl
  · simp [step_fault_iff hp]
  · simp [step_fault_iff hp, exists_decoded_operandOutside_iff]

/-! ### The state after a fault -/

variable {t : State}

/-- The PC, SREG and the three stores are what they were before a failed step (R105). -/
theorem stepTransaction_fault_fields (h : stepTransaction s = .ok (t, .fault f)) :
    t.pc = s.pc ∧ t.sreg = s.sreg ∧ t.data = s.data ∧ t.prog = s.prog ∧ t.eeprom = s.eeprom := by
  rw [stepTransaction_fault_eq_with_ir h]
  exact ⟨rfl, rfl, rfl, rfl, rfl⟩

/-- A failed fetch answers OutOfBounds and leaves the whole state as it was (R105). -/
theorem stepTransaction_of_pc_ge (hp : s.phase = .idle) (hge : s.cfg.progCapacity ≤ s.pc.toNat) :
    stepTransaction s = .ok (s, .fault .outOfBounds) := by
  rw [stepTransaction_of_fault (step_of_pc_ge hp hge), takeFault_of_pc_ge hp hge]

/-- Settles O30: a failed step changes the IR alone, and that only once a word was fetched. -/
theorem stateAfterAFault : Obligations.StateAfterAFault := by
  intro s t f h
  obtain ⟨hp, -, -⟩ := stepTransaction_fault h
  obtain ⟨hpc, hsreg, hdata, hprog, heeprom⟩ := stepTransaction_fault_fields h
  refine ⟨hpc, hsreg, hdata, hprog, heeprom, fun hge => ?_, fun w hw => stepTransaction_ir h hw⟩
  cases (stepTransaction_of_pc_ge hp hge).symm.trans h
  exact ⟨rfl, rfl⟩

end Sys2Proof.Machine
end

section
/-! The observation hooks (R115): between two steps each answers from the state and leaves the session as it was. -/

namespace Sys2Proof.Machine

variable {h : Session} {a : Nat}

section Answers
variable (hp : h.core.phase = .idle)
include hp

theorem transact_peekRegister :
    transact h (.peekRegister a) = .ok (h, byteResponse (peekRegister h.core a)) := by simp only [transact, hp]

theorem transact_peekData : transact h (.peekData a) = .ok (h, byteResponse (peekData h.core a)) := by
  simp only [transact, hp]

theorem transact_peekEeprom : transact h (.peekEeprom a) = .ok (h, byteResponse (peekEeprom h.core a)) := by
  simp only [transact, hp]

theorem transact_peekFlags : transact h .peekFlags = .ok (h, .byte h.core.sreg) := by
  simp only [transact, hp, peekFlags]

theorem transact_programCounter : transact h .programCounter = .ok (h, .address h.core.pc) := by
  simp only [transact, hp, programCounter]

/-- The answer of a hook is read off the data store, the EEPROM, SREG and the PC: with any IR and any program store in
place it is the same, and the session stays as it was. -/
theorem transact_hook {h' : Session} {q : Request} {r : Response} (hstep : q ≠ .step)
    (hload : ∀ bytes, q ≠ .loadProgram bytes ∧ q ≠ .loadEeprom bytes) (ht : transact h q = .ok (h', r)) :
    h' = h ∧ ∀ (ir : Word) (prog : Memory 16),
      transact { h with core := { h.core with ir := ir, prog := prog } } q =
        .ok ({ h with core := { h.core with ir := ir, prog := prog } }, r) := by
  cases q with
  | loadProgram bytes => exact absurd rfl (hload bytes).1
  | loadEeprom bytes => exact absurd rfl (hload bytes).2
  | step => exact absurd rfl hstep
  | peekRegister i =>
    cases (transact_peekRegister hp).symm.trans ht
    exact ⟨rfl, fun _ _ => transact_peekRegister hp⟩
  | peekData a =>
    cases (transact_peekData hp).symm.trans ht
    exact ⟨rfl, fun _ _ => transact_peekData hp⟩
  | peekEeprom a =>
    cases (transact_peekEeprom hp).symm.trans ht
    exact ⟨rfl, fun _ _ => transact_peekEeprom hp⟩
  | peekFlags =>
    cases (transact_peekFlags hp).symm.trans ht
    exact ⟨rfl, fun _ _ => transact_peekFlags hp⟩
  | programCounter =>
    cases (transact_programCounter hp).symm.trans ht
    exact ⟨rfl, fun _ _ => transact_programCounter hp⟩

end Answers

/-- Settles O51: the table's five rows, SREG at its place in the data store, and what no hook can tell. -/
theorem hooksReadAndAlterNothing : Obligations.HooksReadAndAlterNothing := by
  intro h hp
  refine ⟨fun i hi b hb => ?_, fun a b hb => ?_, fun a b hb => ?_, transact_peekFlags hp, transact_programCounter hp,
    fun hcap => ?_, fun q h' r hstep hload => transact_hook hp hstep hload⟩
  · rw [transact_peekRegister hp, peekRegister, if_pos hi, hb, byteResponse]
  · rw [transact_peekData hp, peekData, hb, byteResponse]
  · rw [transact_peekEeprom hp, peekEeprom, hb, byteResponse]
  · rw [transact_peekData hp, peekData, dataRead_of_lt hcap, if_pos rfl, byteResponse]

end Sys2Proof.Machine
end

section
/-! The decode table row by row (R56, R57), and that the decoder and the encoder undo each other (R63). -/

namespace Sys2Proof

/-! ### The rows of the table -/

section Rows
variable (c : Config) (w : Word)

theorem exists_decode_adiw_iff : (∃ p k, decode c w = .ok (.adiw p k)) ↔ w.toNat / 256 = c.opcAdiw.toNat := by
  rw [decode_eq]
  split_ifs <;> simp_all

theorem exists_decode_add_iff :
    (∃ d r, decode c w = .ok (.add d r)) ↔ w.toNat / 256 ≠ c.opcAdiw.toNat ∧ w.toNat / 1024 = c.opcAdd.toNat := by
  rw [decode_eq]
  split_ifs <;> simp_all

theorem exists_decode_adc_iff :
    (∃ d r, decode c w = .ok (.adc d r)) ↔
      w.toNat / 256 ≠ c.opcAdiw.toNat ∧ w.toNat / 1024 ≠ c.opcAdd.toNat ∧ w.toNat / 1024 = c.opcAdc.toNat := by
  rw [decode_eq]
  split_ifs <;> simp_all

theorem exists_decode_and_iff :
    (∃ d r, decode c w = .ok (.and d r)) ↔
      w.toNat / 256 ≠ c.opcAdiw.toNat ∧ w.toNat / 1024 ≠ c.opcAdd.toNat ∧ w.toNat / 1024 ≠ c.opcAdc.toNat ∧
        w.toNat / 1024 = c.opcAnd.toNat := by
  rw [decode_eq]
  split_ifs <;> simp_all

theorem decode_unknown_iff :
    decode c w = .error .unknownOpcode ↔
      w.toNat / 256 ≠ c.opcAdiw.toNat ∧ w.toNat / 1024 ≠ c.opcAdd.toNat ∧ w.toNat / 1024 ≠ c.opcAdc.toNat ∧
        w.toNat / 1024 ≠ c.opcAnd.toNat := by
  rw [decode_eq]
  split_ifs <;> simp_all

end Rows

/-! ### Decode after encode -/

/-- In a legal configuration whose OPC_ADIW begins with no 6-bit opcode the word of a two-register instruction decodes to
it: the three opcodes are distinct (R4). -/
theorem decode_encode_rr {c : Config} (hc : c.Wf)
    (hadiw : ∀ o ∈ [c.opcAdd, c.opcAdc, c.opcAnd], c.opcAdiw.toNat / 4 ≠ o.toNat) (d r : RegIdx) :
    decode c (encode c (.add d r)) = .ok (.add d r) ∧ decode c (encode c (.adc d r)) = .ok (.adc d r) ∧
      decode c (encode c (.and d r)) = .ok (.and d r) := by
  obtain ⟨-, -, hadc, hand, hand'⟩ := hc
  refine ⟨?_, ?_, ?_⟩ <;> rw [encode, decode_encodeRR (hadiw _ (by simp))]
  · exact if_pos rfl
  · rw [if_neg hadc.symm, if_pos rfl]
  · rw [if_neg hand.symm, if_neg hand'.symm, if_pos rfl]

/-- Settles O6: each format's encoder against the decoder, ADIW in every configuration. -/
theorem decodeOfEncodeIsTheInstruction : Obligations.DecodeOfEncodeIsTheInstruction := by
  intro c i hi hcfg
  obtain ⟨p, k, rfl⟩ | ⟨hc, hadiw⟩ := hcfg
  · exact decode_encodeWI c hi k
  · cases i with
    | adiw p k => exact decode_encodeWI c hi k
    | add d r => obtain ⟨hadd, -, -⟩ := decode_encode_rr hc hadiw d r; exact hadd
    | adc d r => obtain ⟨-, hadc, -⟩ := decode_encode_rr hc hadiw d r; exact hadc
    | and d r => obtain ⟨-, -, hand⟩ := decode_encode_rr hc hadiw d r; exact hand

/-! ### Encode after decode -/

/-- A word is `enc_RR` of its opcode and its two fields: no bit is lost (R53). -/
theorem encodeRR_fields {o : BitVec 6} {w : Word} (ho : w.toNat / 1024 = o.toNat) :
    encodeRR o (fieldD w) (fieldR w) = w := by
  apply BitVec.eq_of_toNat_eq
  rw [encodeRR_toNat, fieldD_toNat, fieldR_toNat]
  omega

/-- A word is `enc_ADIW` of its opcode and its two fields (R54). -/
theorem encodeWI_fields {o : BitVec 8} {w : Word} (ho : w.toNat / 256 = o.toNat) :
    encodeWI o (fieldP w) (fieldK w) = w := by
  apply BitVec.eq_of_toNat_eq
  rw [encodeWI_toNat o _ _ (fieldP_isPairLow w), fieldP_toNat, fieldK_toNat]
  omega

/-- Settles O7, by the row that answered. -/
theorem encodeOfDecodeIsTheWord : Obligations.EncodeOfDecodeIsTheWord := by
  intro c w i h
  refine ⟨decode_wf h, ?_⟩
  obtain ⟨ho, rfl⟩ | ⟨-, ⟨ho, rfl⟩ | ⟨-, ho, rfl⟩ | ⟨-, -, ho, rfl⟩⟩ := decode_cases h
  · exact encodeWI_fields ho
  · exact encodeRR_fields ho
  · exact encodeRR_fields ho
  · exact encodeRR_fields ho

/-! ### The statements of the decode table -/

/-- Settles O3: the operands are the fields of R54, and the row of ADIW answered. -/
theorem wideImmediateOperandFields : Obligations.WideImmediateOperandFields := by
  intro c w p k h
  obtain ⟨rfl, rfl⟩ := operands_of_decode h
  exact ⟨fieldP_toNat w, fieldK_toNat w, (exists_decode_adiw_iff c w).1 ⟨_, _, h⟩⟩

/-- Settles O4: the rows of the table, whose 6-bit opcodes are distinct in a legal configuration. -/
theorem mostSpecificEntryWins : Obligations.MostSpecificEntryWins := by
  rintro c w ⟨-, -, hadc, hand, hand'⟩
  rw [← BitVec.toNat_ne_iff_ne] at hadc hand hand'
  refine ⟨(exists_decode_adiw_iff c w).2, fun hw => ⟨fun h => ?_, fun h => ?_, fun h => ?_, fun h => ?_⟩⟩
  · exact (exists_decode_add_iff c w).2 ⟨hw, h⟩
  · exact (exists_decode_adc_iff c w).2 ⟨hw, h ▸ hadc.symm, h⟩
  · exact (exists_decode_and_iff c w).2 ⟨hw, h ▸ hand.symm, h ▸ hand'.symm, h⟩
  · exact (decode_unknown_iff c w).2 ⟨hw, h⟩

/-- Settles O5: the rows of the table with the default opcodes, as ranges of words. -/
theorem defaultCatalogueRanges : Obligations.DefaultCatalogueRanges := by
  intro w
  have hadiw : Config.default.opcAdiw.toNat = 0x96 := rfl
  have hadd : Config.default.opcAdd.toNat = 3 := rfl
  have hadc : Config.default.opcAdc.toNat = 7 := rfl
  have hand : Config.default.opcAnd.toNat = 8 := rfl
  rw [exists_decode_add_iff, exists_decode_adc_iff, exists_decode_and_iff, exists_decode_adiw_iff, decode_unknown_iff,
    hadiw, hadd, hadc, hand]
  omega

/-- Settles O1: each word through the decoder. -/
theorem decodeWordsOfTheSpec : Obligations.DecodeWordsOfTheSpec := by
  unfold Obligations.DecodeWordsOfTheSpec
  decide

end Sys2Proof
end

section
/-! What a completed instruction leaves (R74 to R78), once for both formats: the frame of the data store, the status bits it
keeps, the sign flag, and that it reads no flag but the C of ADC. -/

namespace Sys2Proof.Machine

open Sys2Proof.Statements

variable {alu : Byte → Byte → Byte → Byte × Byte} {aluW : Word → BitVec 6 → Byte → Word × Byte} {i : Instr}
  {d r p : RegIdx} {k : BitVec 6} {vd vr : Byte} {vw : Word} {s t : State}

/-! ### The two formats of the dispatch -/

/-- A two-register instruction is format RR over its pure function (R74). -/
theorem exec_rr (hi : i = .add d r ∨ i = .adc d r ∨ i = .and d r) : exec i s = execRR (rrAlu i) d r s := by
  obtain rfl | rfl | rfl := hi
  · rfl
  · rfl
  · rfl

/-! ### The data store -/

/-- Format RR changes no data byte but its destination and SREG's place. -/
theorem dataRead_rrState_of_ne {a : Nat} (hd : a ≠ d.toNat) (hs : a ≠ s.cfg.sregAddr) :
    dataRead (rrState alu d vd vr s) a = dataRead s a :=
  dataRead_congr (rrState_cfg ..) (cell_putData_of_ne hd) (.inr hs)

/-- Format WI changes no data byte but its pair and SREG's place. -/
theorem dataRead_wiState_of_ne {a : Nat} (hlow : a ≠ p.toNat) (hhigh : a ≠ p.toNat + 1) (hs : a ≠ s.cfg.sregAddr) :
    dataRead (wiState aluW p k vw s) a = dataRead s a :=
  dataRead_congr (wiState_cfg ..) ((cell_putData_of_ne hhigh).trans (cell_putData_of_ne hlow)) (.inr hs)

/-- A two-register instruction changes no data byte but its destination and SREG's place. -/
theorem exec_rr_dataRead_of_ne (hi : i = .add d r ∨ i = .adc d r ∨ i = .and d r) (h : exec i s = .next t) {a : Nat}
    (hd : a ≠ d.toNat) (hs : a ≠ s.cfg.sregAddr) : dataRead t a = dataRead s a := by
  rw [exec_rr hi] at h
  obtain ⟨vd, vr, -, -, rfl⟩ := execRR_next h
  exact dataRead_rrState_of_ne hd hs

/-- The registers of a well-formed instruction are among the 32 (R12). -/
theorem operandAddresses_lt (hi : i.Wf) : ∀ a ∈ operandAddresses i, a < 32 := by
  cases i with
  | adiw p k =>
    have hpair : ∀ p : RegIdx, IsPairLow p → ∀ a ∈ [p.toNat, p.toNat + 1], a < 32 := by decide
    exact hpair p hi
  | add d r => simpa [operandAddresses] using ⟨d.isLt, r.isLt⟩
  | adc d r => simpa [operandAddresses] using ⟨d.isLt, r.isLt⟩
  | and d r => simpa [operandAddresses] using ⟨d.isLt, r.isLt⟩

/-- An instruction changes no data byte but at its operand addresses and SREG's place. -/
theorem exec_dataRead_of_not_operand (h : exec i s = .next t) {a : Nat} (ha : a ∉ operandAddresses i)
    (hs : a ≠ s.cfg.sregAddr) : dataRead t a = dataRead s a := by
  obtain ⟨p, k, lo, hi, rfl, -, -, rfl⟩ | ⟨d, r, vd, vr, hi, -, -, rfl⟩ := exec_next h
  · simp only [operandAddresses, List.mem_cons, List.not_mem_nil, or_false, not_or] at ha
    exact dataRead_wiState_of_ne ha.1 ha.2 hs
  · have had : a ≠ d.toNat := by
      rintro rfl
      obtain rfl | rfl | rfl := hi <;> simp [operandAddresses] at ha
    exact dataRead_rrState_of_ne had hs

/-! ### The canonical form of the stores -/

theorem rrState_storesWf (hs : StoresWf s) (hd : d.toNat < s.cfg.dataCapacity) : StoresWf (rrState alu d vd vr s) :=
  putData_storesWf hs hd _

theorem wiState_storesWf (hs : StoresWf s) (hp : p.toNat + 1 < s.cfg.dataCapacity) : StoresWf (wiState aluW p k vw s) :=
  putData_storesWf (putData_storesWf hs (Nat.lt_of_succ_lt hp) _) (by simpa using hp) _

/-- A completed instruction keeps the stores in canonical form: the addresses it writes are in bounds. -/
theorem exec_storesWf (hs : StoresWf s) (h : exec i s = .next t) : StoresWf t := by
  obtain ⟨p, k, lo, hi, -, -, hhi, rfl⟩ | ⟨d, r, vd, vr, -, hd, -, rfl⟩ := exec_next h
  · exact wiState_storesWf hs (dataRead_ok hhi).1
  · exact rrState_storesWf hs (dataRead_ok hd).1

/-! ### The status bits -/

/-- The shared adder keeps T and I, and computes S as N xor V. -/
theorem add8_flags (vd vr : Byte) (cin : Bool) (sreg : Byte) :
    (∀ b < 8, b ∉ flagsWritten (.add d r) → (add8 vd vr cin sreg).2.getLsbD b = sreg.getLsbD b) ∧
      (add8 vd vr cin sreg).2.getLsbD 4 =
        ((add8 vd vr cin sreg).2.getLsbD 2 ^^ (add8 vd vr cin sreg).2.getLsbD 3) := by
  obtain ⟨-, -, -, -, -, hS, -, hT, hI⟩ := add8_formulas vd vr cin sreg
  refine ⟨fun b hb hn => ?_, hS⟩
  obtain rfl | rfl : b = 6 ∨ b = 7 := by simp [flagsWritten] at hn; omega
  · exact hT
  · exact hI

/-- AND keeps C, H, T and I, and computes S as N xor V. -/
theorem and8_flags (vd vr sreg : Byte) :
    (∀ b < 8, b ∉ flagsWritten (.and d r) → (and8 vd vr sreg).2.getLsbD b = sreg.getLsbD b) ∧
      (and8 vd vr sreg).2.getLsbD 4 = ((and8 vd vr sreg).2.getLsbD 2 ^^ (and8 vd vr sreg).2.getLsbD 3) := by
  obtain ⟨-, hC, -, -, -, hS, hH, hT, hI⟩ := and8_formulas vd vr sreg
  refine ⟨fun b hb hn => ?_, hS⟩
  obtain rfl | rfl | rfl | rfl : b = 0 ∨ b = 5 ∨ b = 6 ∨ b = 7 := by simp [flagsWritten] at hn; omega
  · exact hC
  · exact hH
  · exact hT
  · exact hI

/-- ADIW keeps H, T and I, and computes S as N xor V. -/
theorem addW_flags (vw : Word) (k : BitVec 6) (sreg : Byte) :
    (∀ b < 8, b ∉ flagsWritten (.adiw p k) → (addW vw k sreg).2.getLsbD b = sreg.getLsbD b) ∧
      (addW vw k sreg).2.getLsbD 4 = ((addW vw k sreg).2.getLsbD 2 ^^ (addW vw k sreg).2.getLsbD 3) := by
  obtain ⟨-, -, -, -, -, hS, hH, hT, hI⟩ := addW_formulas vw k sreg
  refine ⟨fun b hb hn => ?_, hS⟩
  obtain rfl | rfl | rfl : b = 5 ∨ b = 6 ∨ b = 7 := by simp [flagsWritten] at hn; omega
  · exact hH
  · exact hT
  · exact hI

/-- The pure function of a two-register instruction keeps the bits outside the instruction's list, and computes S as
N xor V. -/
theorem rrAlu_flags (hi : i = .add d r ∨ i = .adc d r ∨ i = .and d r) (vd vr sreg : Byte) :
    (∀ b < 8, b ∉ flagsWritten i → (rrAlu i vd vr sreg).2.getLsbD b = sreg.getLsbD b) ∧
      (rrAlu i vd vr sreg).2.getLsbD 4 = ((rrAlu i vd vr sreg).2.getLsbD 2 ^^ (rrAlu i vd vr sreg).2.getLsbD 3) := by
  obtain rfl | rfl | rfl := hi
  · exact add8_flags (d := d) (r := r) vd vr false sreg
  · exact add8_flags (d := d) (r := r) vd vr (flag .c sreg) sreg
  · exact and8_flags (d := d) (r := r) vd vr sreg

/-- A completed instruction keeps every status bit outside its list (R19). -/
theorem exec_keeps_flag (h : exec i s = .next t) {b : Nat} (hb : b < 8) (hn : b ∉ flagsWritten i) :
    t.sreg.getLsbD b = s.sreg.getLsbD b := by
  obtain ⟨p, k, lo, hi, rfl, -, -, rfl⟩ | ⟨d, r, vd, vr, hi, -, -, rfl⟩ := exec_next h
  · exact (addW_flags _ k s.sreg).1 b hb hn
  · exact (rrAlu_flags hi vd vr s.sreg).1 b hb hn

/-- T and I are in no instruction's list. -/
theorem not_mem_flagsWritten (i : Instr) : 6 ∉ flagsWritten i ∧ 7 ∉ flagsWritten i := by
  cases i <;> simp [flagsWritten]

/-- After a completed instruction S = N xor V. -/
theorem exec_sign (h : exec i s = .next t) : t.sreg.getLsbD 4 = (t.sreg.getLsbD 2 ^^ t.sreg.getLsbD 3) := by
  obtain ⟨p, k, lo, hi, rfl, -, -, rfl⟩ | ⟨d, r, vd, vr, hi, -, -, rfl⟩ := exec_next h
  · exact (addW_flags (p := p) _ k s.sreg).2
  · exact (rrAlu_flags hi vd vr s.sreg).2

/-! ### Another status byte in place of SREG -/

theorem putData_with_sreg {a : Nat} {v : Byte} (x : Byte) (ha : a ≠ s.cfg.sregAddr) :
    putData { s with sreg := x } a v = { putData s a v with sreg := x } := by
  simp [putData, ha]

theorem rrState_with_sreg {x : Byte} (hd : d.toNat ≠ s.cfg.sregAddr) (hres : (alu vd vr x).1 = (alu vd vr s.sreg).1) :
    rrState alu d vd vr { s with sreg := x } = { rrState alu d vd vr s with sreg := (alu vd vr x).2 } := by
  simp only [rrState, hres, putData_with_sreg x hd]

theorem wiState_with_sreg {x : Byte} (hlow : p.toNat ≠ s.cfg.sregAddr) (hhigh : p.toNat + 1 ≠ s.cfg.sregAddr) :
    wiState addW p k vw { s with sreg := x } = { wiState addW p k vw s with sreg := (addW vw k x).2 } := by
  have hres : (addW vw k x).1 = (addW vw k s.sreg).1 := rfl
  simp only [wiState, hres, putData_with_sreg x hlow]
  rw [putData_with_sreg x (by simpa using hhigh)]

/-- The result and the written flags of a two-register instruction depend on no flag but the C of ADC. -/
theorem rrAlu_reads_carry_only (hi : i = .add d r ∨ i = .adc d r ∨ i = .and d r) {x y : Byte}
    (hC : readsCarry i = true → x.getLsbD 0 = y.getLsbD 0) :
    (rrAlu i vd vr x).1 = (rrAlu i vd vr y).1 ∧
      ∀ b ∈ flagsWritten i, (rrAlu i vd vr x).2.getLsbD b = (rrAlu i vd vr y).2.getLsbD b := by
  obtain rfl | rfl | rfl := hi
  · refine ⟨rfl, ?_⟩
    simp [flagsWritten, rrAlu, add8]
  · have hC : flag .c x = flag .c y := hC rfl
    simp [flagsWritten, rrAlu, hC, add8]
  · refine ⟨rfl, ?_⟩
    simp [flagsWritten, rrAlu, and8]

/-- The flags ADIW writes depend on no flag. -/
theorem addW_reads_no_flag (x y : Byte) :
    ∀ b ∈ flagsWritten (.adiw p k), (addW vw k x).2.getLsbD b = (addW vw k y).2.getLsbD b := by
  simp [flagsWritten, addW]

/-- With another status byte in place of SREG (for ADC one with the same C) an instruction completes with the same state
but for SREG, whose written flags are the same. -/
theorem exec_with_sreg {x : Byte} (hc : s.cfg.Wf) (hi : i.Wf) (hC : readsCarry i = true → x.getLsbD 0 = s.sreg.getLsbD 0)
    (h : exec i s = .next t) :
    ∃ y : Byte, exec i { s with sreg := x } = .next { t with sreg := y } ∧
      ∀ b ∈ flagsWritten i, y.getLsbD b = t.sreg.getLsbD b := by
  have hread : ∀ {a : Nat}, a ≠ s.cfg.sregAddr → dataRead { s with sreg := x } a = dataRead s a := fun ha =>
    dataRead_congr rfl rfl (.inr ha)
  obtain ⟨p, k, lo, hi', rfl, hl, hh, rfl⟩ | ⟨d, r, vd, vr, hrr, hd, hr, rfl⟩ := exec_next h
  · have hlow := regIdx_ne_sregAddr hc p
    have hhigh := pairHigh_ne_sregAddr hc hi
    refine ⟨_, ?_, addW_reads_no_flag x s.sreg⟩
    rw [← wiState_with_sreg hlow hhigh]
    exact execWI_completes ((hread hlow).trans hl) ((hread hhigh).trans hh)
  · have hd' := regIdx_ne_sregAddr hc d
    obtain ⟨hres, hflags⟩ := rrAlu_reads_carry_only (vd := vd) (vr := vr) hrr hC
    refine ⟨_, ?_, hflags⟩
    rw [← rrState_with_sreg hd' hres, exec_rr hrr]
    exact execRR_completes ((hread hd').trans hd) ((hread (regIdx_ne_sregAddr hc r)).trans hr)

/-! ### The execute fault -/

theorem operandOutside_iff {capacity : Nat} : OperandOutside capacity i ↔ ∃ a ∈ operandAddresses i, capacity ≤ a := by
  cases i with
  | adiw p k =>
    simp only [OperandOutside, operandAddresses, List.mem_cons, List.not_mem_nil, or_false, exists_eq_or_imp,
      exists_eq_left]
    omega
  | add d r => simp [OperandOutside, operandAddresses]
  | adc d r => simp [OperandOutside, operandAddresses]
  | and d r => simp [OperandOutside, operandAddresses]

/-- An instruction completes when all its operand addresses are inside the data store. -/
theorem exec_completes (h : ∀ a ∈ operandAddresses i, a < s.cfg.dataCapacity) : ∃ t, exec i s = .next t := by
  obtain hnext | hfault := exec_cases i s
  · exact hnext
  · obtain ⟨a, ha, hge⟩ := operandOutside_iff.1 (exec_fault_iff.1 hfault).1
    exact absurd (h a ha) (Nat.not_lt.2 hge)

end Sys2Proof.Machine
end

section
/-! The statements about one completed instruction: its frame, its flags and its fault. -/

namespace Sys2Proof.Machine

open Sys2Proof.Statements

/-- Settles O18: another status byte changes SREG alone. -/
theorem onlyAdcReadsTheCarry : Obligations.OnlyAdcReadsTheCarry := by
  intro s t i sreg hc hi hC h
  obtain ⟨y, hy, hflags⟩ := exec_with_sreg hc hi hC h
  exact ⟨_, hy, rfl, rfl, hflags⟩

/-- PROG and EEPROM read as before a completed instruction. -/
theorem exec_other_stores {i : Instr} {s t : State} (h : exec i s = .next t) :
    (∀ a, progRead t a = progRead s a) ∧ ∀ a, eepromRead t a = eepromRead s a := by
  obtain ⟨hcfg, hprog, heeprom, -⟩ := exec_next_fields h
  simp [progRead, eepromRead, hcfg, hprog, heeprom]

/-- Settles O19: the frame of format RR. -/
theorem twoRegisterFrame : Obligations.TwoRegisterFrame := by
  intro s t i d r hi h
  obtain ⟨hcfg, -, -, hir, hphase, -⟩ := exec_next_fields h
  obtain ⟨hT, hI⟩ := not_mem_flagsWritten i
  refine ⟨fun a had has => exec_rr_dataRead_of_ne hi h had has, exec_keeps_flag h (by decide) hT,
    exec_keeps_flag h (by decide) hI, ?_, hir, hphase, hcfg, exec_other_stores h⟩
  rintro rfl
  exact ⟨exec_keeps_flag h (by decide) (by simp [flagsWritten]), exec_keeps_flag h (by decide) (by simp [flagsWritten])⟩

/-- Settles O20: the frame of format WI. -/
theorem adiwFrame : Obligations.AdiwFrame := by
  intro s t p k h
  obtain ⟨hcfg, -, -, hir, hphase, -⟩ := exec_next_fields h
  obtain ⟨hT, hI⟩ := not_mem_flagsWritten (.adiw p k)
  have hH : 5 ∉ flagsWritten (.adiw p k) := by simp [flagsWritten]
  refine ⟨fun a hlow hhigh has => ?_, exec_keeps_flag h (by decide) hH, exec_keeps_flag h (by decide) hT,
    exec_keeps_flag h (by decide) hI, hir, hphase, hcfg, exec_other_stores h⟩
  exact exec_dataRead_of_not_operand h (by simp [operandAddresses, hlow, hhigh]) has

/-- A status byte whose flag `b` an instruction on zero registers inverts, given the Z it computes. -/
def opposedSreg (z : Bool) (b : Nat) : Byte := if b = 1 ∧ z then 0x00 else 0xFF

/-- The reset state with another status byte: every register reads 0. -/
theorem dataRead_reset_with_sreg (x : Byte) {a : Nat} (ha : a < 32) : dataRead { State.reset with sreg := x } a = .ok 0 := by
  have hcap : State.reset.cfg.dataCapacity = 351 := rfl
  have hsreg : State.reset.cfg.sregAddr = 95 := rfl
  rw [dataRead_of_lt (by simp only [hcap]; omega), if_neg (by simp only [hsreg]; omega)]
  rfl

/-- On zero operands every listed flag of a two-register instruction comes out opposite to what it was. -/
theorem rrAlu_opposes {i : Instr} {d r : RegIdx} (hi : i = .add d r ∨ i = .adc d r ∨ i = .and d r) :
    ∀ b ∈ flagsWritten i, (rrAlu i 0 0 (opposedSreg true b)).2.getLsbD b ≠ (opposedSreg true b).getLsbD b := by
  obtain rfl | rfl | rfl := hi
  · simp only [flagsWritten, rrAlu]; decide
  · simp only [flagsWritten, rrAlu]; decide
  · simp only [flagsWritten, rrAlu]; decide

/-- On a zero pair every listed flag of ADIW comes out opposite to what it was; Z is set for K = 0 only. -/
theorem addW_opposes (p : RegIdx) (k : BitVec 6) :
    ∀ b ∈ flagsWritten (.adiw p k),
      (addW 0 k (opposedSreg (k == 0) b)).2.getLsbD b ≠ (opposedSreg (k == 0) b).getLsbD b := by
  simp only [flagsWritten]
  revert k
  decide

/-- Settles O21: the kept bits, and for each listed one the reset state with the opposite flag. -/
theorem exactlyTheListedFlagsAreModified : Obligations.ExactlyTheListedFlagsAreModified := by
  refine ⟨fun s t i h b hb hn => exec_keeps_flag h hb hn, fun i hi b hb => ?_⟩
  have hrr : ∀ d r : RegIdx, i = .add d r ∨ i = .adc d r ∨ i = .and d r →
      ∃ s t : State, exec i s = .next t ∧ t.sreg.getLsbD b ≠ s.sreg.getLsbD b := fun d r hrr =>
    ⟨{ State.reset with sreg := opposedSreg true b }, _,
      (exec_rr hrr).trans (execRR_completes (dataRead_reset_with_sreg _ d.isLt) (dataRead_reset_with_sreg _ r.isLt)),
      rrAlu_opposes hrr b hb⟩
  cases i with
  | adiw p k =>
    have hreg := operandAddresses_lt hi
    exact ⟨{ State.reset with sreg := opposedSreg (k == 0) b }, _,
      execWI_completes (dataRead_reset_with_sreg _ (hreg _ (by simp [operandAddresses])))
        (dataRead_reset_with_sreg _ (hreg _ (by simp [operandAddresses]))), addW_opposes p k b hb⟩
  | add d r => exact hrr d r (.inl rfl)
  | adc d r => exact hrr d r (.inr (.inl rfl))
  | and d r => exact hrr d r (.inr (.inr rfl))

/-- Settles O22: the fault's condition, and that an instruction otherwise completes. -/
theorem executeFaultsExactlyWhenAnOperandIsOutside : Obligations.ExecuteFaultsExactlyWhenAnOperandIsOutside := fun _ _ =>
  ⟨fun h => exec_fault_iff.2 ⟨operandOutside_iff.2 h, rfl⟩, exec_completes⟩

end Sys2Proof.Machine
end

section
/-! What every step keeps (70_reset_and_hazards.md): the step as `exec` of the decoded instruction, its faults for good, and the
invariants of a completed and of a failed step. -/

namespace Sys2Proof.Machine

open Sys2Proof.Statements

variable {i : Instr} {s t : State} {res : StepResult} {f : Fault}

/-! ### The step as `exec` of the decoded instruction -/

theorem step_of_decode {w : Word} (hp : s.phase = .idle) (hw : progRead s s.pc.toNat = .ok w)
    (hd : decode s.cfg w = .ok i) : step s = returnToIdle (exec i { s with ir := w, phase := .executing }) := by
  obtain ⟨hlt, rfl⟩ := progRead_ok hw
  simp [step, hp, fetch_of_lt hlt, decodeFetched, hd]

/-- Settles O23: the two endings of `returnToIdle`. -/
theorem stepRunsTheDecodedInstruction : Obligations.StepRunsTheDecodedInstruction := by
  intro s w i hp hw hd
  rw [step_of_decode hp hw hd]
  exact ⟨fun t ht => by rw [ht, returnToIdle], fun f hf => by rw [hf, returnToIdle]⟩

/-- Settles O32: the operands of a decoded word are among the 32 registers. -/
theorem knownWordsCompleteWithAFullRegisterFile : Obligations.KnownWordsCompleteWithAFullRegisterFile := by
  intro s w i hp hcap hw hd
  obtain ⟨t, ht⟩ := exec_completes (i := i) (s := { s with ir := w, phase := .executing }) fun a ha =>
    Nat.lt_of_lt_of_le (operandAddresses_lt (decode_wf hd) a ha) hcap
  exact ⟨_, by rw [step_of_decode hp hw hd, ht, returnToIdle]⟩

/-- A step in Idle completes or faults. -/
theorem step_of_idle (hp : s.phase = .idle) : (∃ t, step s = .next t) ∨ ∃ f, step s = .fault f := by
  obtain ⟨hx, -⟩ | ⟨-, -, he⟩ | ⟨-, -, -, he⟩ | ⟨-, -, i, -, he⟩ := step_cases s
  · rw [hp] at hx
    cases hx
  · exact .inr ⟨_, he⟩
  · exact .inr ⟨_, he⟩
  · rw [he]
    obtain ⟨u, hu⟩ | hu := exec_cases i { s with ir := cell s.prog s.pc.toNat, phase := .executing }
    · exact .inl ⟨_, by rw [hu, returnToIdle]⟩
    · exact .inr ⟨_, by rw [hu, returnToIdle]⟩

theorem step_of_executing (hp : s.phase = .executing) : step s = .refused .requestInFlight := by
  simp only [step, hp]

theorem stepTransaction_of_next (h : step s = .next t) : stepTransaction s = .ok (t, .ok) := by
  simp only [stepTransaction, h]

/-- A step that faults was requested in Idle. -/
theorem phase_of_step_fault (h : step s = .fault f) : s.phase = .idle :=
  (stepTransaction_ok (stepTransaction_of_fault h)).1

/-- Settles O33, by the phase. -/
theorem stepIsRefusedOnlyInFlight : Obligations.StepIsRefusedOnlyInFlight := by
  refine fun s => ⟨fun hp => ?_, step_of_executing⟩
  obtain ⟨t, ht⟩ | ⟨f, hf⟩ := step_of_idle hp
  · exact ⟨_, _, stepTransaction_of_next ht⟩
  · exact ⟨_, _, stepTransaction_of_fault hf⟩

/-! ### A fault is permanent -/

/-- A step does not read the IR: its fetch writes it first (R72). -/
theorem step_with_ir (x : Word) : step { s with ir := x } = step s := rfl

/-- A second failed step leaves the state the first one left. -/
theorem takeFault_with_ir (hp : s.phase = .idle) : takeFault { s with ir := (takeFault s).ir } = takeFault s := by
  obtain hlt | hge := Nat.lt_or_ge s.pc.toNat s.cfg.progCapacity
  · rw [takeFault_of_lt hlt]
    exact takeFault_of_lt hlt
  · rw [takeFault_of_pc_ge hp hge, takeFault_of_pc_ge hp hge]

/-- The state a failed step leaves is one that every step fails in, and leaves as it is. -/
theorem stepTransaction_after_fault (h : stepTransaction s = .ok (t, .fault f)) :
    stepTransaction t = .ok (t, .fault f) := by
  obtain ⟨hp, hstep, rfl⟩ := stepTransaction_fault h
  have hstep' : step (takeFault s) = .fault f := by rw [takeFault_eq_with_ir hp, step_with_ir, hstep]
  rw [stepTransaction_of_fault hstep']
  conv_lhs => rw [takeFault_eq_with_ir hp, takeFault_with_ir hp]

/-- Settles O31, by induction on the number of further steps. -/
theorem faultIsPermanent : Obligations.FaultIsPermanent := by
  intro s t f h n
  have ht := stepTransaction_after_fault h
  refine ⟨?_, ht⟩
  induction n with
  | zero => rfl
  | succ n ih => rw [afterSteps, ht]; exact ih

/-! ### What a step keeps -/

/-- Settles O34: the stores by the frame of the instruction, the PC by its advance from below PROG_CAPACITY. -/
theorem stepKeepsTheStateLegal : Obligations.StepKeepsTheStateLegal := by
  rintro s t ⟨hc, hs, -, -⟩ h
  obtain ⟨-, -, i, u, -, hexec, rfl⟩ := step_next h
  obtain ⟨hlt, hcfg, hpc⟩ := step_next_advances hc.1 h
  have hfetched : StoresWf { s with ir := cell s.prog s.pc.toNat, phase := .executing } := hs
  have hstores : StoresWf u := exec_storesWf hfetched hexec
  refine ⟨by rwa [hcfg], hstores, ?_, rfl⟩
  rw [PcInRange, hpc, hcfg]
  exact hlt

/-- No step, completed or failed, changes the configuration, PROG or EEPROM. -/
theorem stepTransaction_keeps (h : stepTransaction s = .ok (t, res)) :
    t.cfg = s.cfg ∧ t.prog = s.prog ∧ t.eeprom = s.eeprom := by
  obtain ⟨hp, ⟨hstep, -⟩ | ⟨f, -, -, rfl⟩⟩ := stepTransaction_ok h
  · obtain ⟨hcfg, hprog, heeprom, -⟩ := step_next_fields hstep
    exact ⟨hcfg, hprog, heeprom⟩
  · rw [takeFault_eq_with_ir hp]
    exact ⟨rfl, rfl, rfl⟩

/-- Settles O36, by both endings of a step. -/
theorem stepKeepsConfigurationProgramAndEeprom : Obligations.StepKeepsConfigurationProgramAndEeprom := fun _ _ _ h =>
  stepTransaction_keeps h

/-- A completed step leaves I/O space and SRAM: its instruction's operands are registers. -/
theorem step_next_dataRead (h : step s = .next t) {a : Nat} (ha : 32 ≤ a) (hs : a ≠ s.cfg.sregAddr) :
    dataRead t a = dataRead s a := by
  obtain ⟨-, -, i, u, hd, hexec, rfl⟩ := step_next h
  have hnot : a ∉ operandAddresses i := fun hmem => Nat.not_lt.2 ha (operandAddresses_lt (decode_wf hd) a hmem)
  exact exec_dataRead_of_not_operand hexec hnot hs

/-- Settles O37, by both endings of a step. -/
theorem stepLeavesIoSpaceAndSram : Obligations.StepLeavesIoSpaceAndSram := by
  intro s t res _ h a ha hs
  obtain ⟨hp, ⟨hstep, -⟩ | ⟨f, -, -, rfl⟩⟩ := stepTransaction_ok h
  · exact step_next_dataRead hstep ha hs
  · rw [takeFault_eq_with_ir hp]
    rfl

/-- A completed step computes S as N xor V. -/
theorem step_next_sign (h : step s = .next t) : t.sreg.getLsbD 4 = (t.sreg.getLsbD 2 ^^ t.sreg.getLsbD 3) := by
  obtain ⟨-, -, i, u, -, hexec, rfl⟩ := step_next h
  exact (exec_sign hexec :)

/-- A completed step keeps T and I. -/
theorem step_next_transfer_interrupt (h : step s = .next t) :
    t.sreg.getLsbD 6 = s.sreg.getLsbD 6 ∧ t.sreg.getLsbD 7 = s.sreg.getLsbD 7 := by
  obtain ⟨-, -, i, u, -, hexec, rfl⟩ := step_next h
  obtain ⟨hT, hI⟩ := not_mem_flagsWritten i
  exact ⟨exec_keeps_flag hexec (by decide) hT, exec_keeps_flag hexec (by decide) hI⟩

/-- Settles O38; the state that violates the rule is the reset state with S alone set. -/
theorem signIsNegativeXorOverflow : Obligations.SignIsNegativeXorOverflow :=
  ⟨fun _ _ _ h => exec_sign h, fun _ _ h => step_next_sign h, { State.reset with sreg := 0x10 }, by decide, by decide⟩

/-! ### T and I -/

/-- The status bits 0 to 5 are outside a mask of T and I. -/
theorem getLsbD_eq_false_of_and_eq_zero {m : Byte} (hm : m &&& 0x3F#8 = 0#8) {b : Nat} (hb : b < 6) :
    m.getLsbD b = false := by
  have hbit : ∀ b < 6, (0x3F#8).getLsbD b = true := by decide
  have := congrArg (fun x => x.getLsbD b) hm
  simpa [hbit b hb] using this

/-- No instruction writes T or I. -/
theorem lt_six_of_mem_flagsWritten {b : Nat} (hb : b ∈ flagsWritten i) : b < 6 := by
  cases i <;> simp [flagsWritten] at hb <;> omega

/-- Inverting T or I beforehand inverts them in the state an instruction leaves, and changes nothing else. -/
theorem exec_xor_sreg {m : Byte} (hc : s.cfg.Wf) (hi : i.Wf) (hm : m &&& 0x3F#8 = 0#8) (h : exec i s = .next t) :
    exec i { s with sreg := s.sreg ^^^ m } = .next { t with sreg := t.sreg ^^^ m } := by
  have hC : readsCarry i = true → (s.sreg ^^^ m).getLsbD 0 = s.sreg.getLsbD 0 := fun _ => by
    rw [BitVec.getLsbD_xor, getLsbD_eq_false_of_and_eq_zero hm (by decide), Bool.xor_false]
  obtain ⟨y, hy, hwritten⟩ := exec_with_sreg hc hi hC h
  have hy' : y = t.sreg ^^^ m := by
    apply BitVec.eq_of_getLsbD_eq
    intro b hb
    rw [BitVec.getLsbD_xor]
    by_cases hmem : b ∈ flagsWritten i
    · rw [hwritten b hmem, getLsbD_eq_false_of_and_eq_zero hm (lt_six_of_mem_flagsWritten hmem), Bool.xor_false]
    · have hkept : y.getLsbD b = (s.sreg ^^^ m).getLsbD b := exec_keeps_flag hy hb hmem
      rw [hkept, BitVec.getLsbD_xor, exec_keeps_flag h hb hmem]
  rw [hy, hy']

/-- A completed step from a legal configuration does the same with T and I inverted. -/
theorem step_xor_sreg {m : Byte} (hc : s.cfg.Wf) (hm : m &&& 0x3F#8 = 0#8) (h : step s = .next t) :
    step { s with sreg := s.sreg ^^^ m } = .next { t with sreg := t.sreg ^^^ m } := by
  obtain ⟨hp, hlt, i, u, hd, hexec, rfl⟩ := step_next h
  have hx := exec_xor_sreg (s := { s with ir := cell s.prog s.pc.toNat, phase := .executing }) hc (decode_wf hd) hm hexec
  exact (step_of_decode (s := { s with sreg := s.sreg ^^^ m }) hp (progRead_of_lt hlt) hd).trans (congrArg returnToIdle hx)

/-- The two upper bits of a status byte are T and I. -/
theorem and_mask_transfer_interrupt {x y : Byte} (hT : x.getLsbD 6 = y.getLsbD 6) (hI : x.getLsbD 7 = y.getLsbD 7) :
    x &&& 0xC0#8 = y &&& 0xC0#8 := by
  apply BitVec.eq_of_getLsbD_eq
  intro b hb
  have hmask : ∀ b < 8, (0xC0#8).getLsbD b = true → b = 6 ∨ b = 7 := by decide
  rw [BitVec.getLsbD_and, BitVec.getLsbD_and]
  cases hbit : (0xC0#8).getLsbD b with
  | false => simp
  | true =>
    obtain rfl | rfl := hmask b hb hbit
    · rw [hT]
    · rw [hI]

/-- Settles O39: the conditions of a fault do not speak of SREG, and a completed step keeps T and I. -/
theorem transferAndInterruptBitsAreInert : Obligations.TransferAndInterruptBitsAreInert := by
  intro s m hc hm
  refine ⟨fun t h => ?_, fun f h => ?_⟩
  · obtain ⟨hT, hI⟩ := step_next_transfer_interrupt h
    exact ⟨and_mask_transfer_interrupt hT hI, step_xor_sreg hc hm h⟩
  · have hp := phase_of_step_fault h
    have hcond := (step_fault_iff hp).1 h
    exact (step_fault_iff (s := { s with sreg := s.sreg ^^^ m }) hp).2 hcond

/-! ### Every run ends -/

theorem run_of_next {n : Nat} (h : step s = .next t) : Sys2Proof.core.run (n + 1) s = Sys2Proof.core.run n t := by
  have hcore : Sys2Proof.core.step s = .next t := h
  simp only [Host.Core.run, hcore]

theorem run_of_fault {n : Nat} (h : step s = .fault f) : Sys2Proof.core.run (n + 1) s = .fault f := by
  have hcore : Sys2Proof.core.step s = .fault f := h
  simp only [Host.Core.run, hcore]

/-- With `n` words left above the PC the run is over after `n + 1` steps: each completed step leaves one less. -/
theorem run_faults (n : Nat) (hs : s.Wf) (hn : s.cfg.progCapacity - s.pc.toNat = n) :
    ∃ f : Fault, Sys2Proof.core.run (n + 1) s = .fault f := by
  induction n generalizing s with
  | zero =>
    obtain ⟨-, -, -, hp⟩ := hs
    exact ⟨_, run_of_fault (step_of_pc_ge hp (Nat.sub_eq_zero_iff_le.1 hn))⟩
  | succ n ih =>
    have ⟨hc, _, _, hp⟩ := hs
    obtain ⟨t, ht⟩ | ⟨f, hf⟩ := step_of_idle hp
    · obtain ⟨-, hcfg, hpc⟩ := step_next_advances hc.1 ht
      rw [run_of_next ht]
      exact ih (stepKeepsTheStateLegal s t hs ht) (by rw [hcfg, hpc]; omega)
    · exact ⟨f, run_of_fault hf⟩

/-- Settles O41, by induction on the words left above the PC. -/
theorem everyRunEndsInAFault : Obligations.EveryRunEndsInAFault := fun _ hs => run_faults _ hs rfl

/-! ### What a step depends on -/

/-- Two states with the same configuration, PC, SREG and registers. -/
structure SameRegisters (s₁ s₂ : State) : Prop where
  cfg : s₂.cfg = s₁.cfg
  pc : s₂.pc = s₁.pc
  sreg : s₂.sreg = s₁.sreg
  reg : ∀ a < 32, dataRead s₂ a = dataRead s₁ a

variable {s₁ s₂ t₁ : State}

/-- Completed states of format RR with the same operands agree where the states before them do. -/
theorem SameRegisters.rrState {alu : Byte → Byte → Byte → Byte × Byte} {d : RegIdx} {vd vr : Byte}
    (h : SameRegisters s₁ s₂) (hc : s₁.cfg.Wf) (hs₁ : StoresWf s₁) (hs₂ : StoresWf s₂)
    (hd : d.toNat < s₁.cfg.dataCapacity) : SameRegisters (rrState alu d vd vr s₁) (rrState alu d vd vr s₂) := by
  refine ⟨by simpa using h.cfg, by simp [h.pc], by simp [h.sreg], fun a ha => ?_⟩
  have hne : a ≠ s₁.cfg.sregAddr := by omega
  by_cases had : a = d.toNat
  · rw [had, dataRead_rrState_dest hc hs₁ hd, dataRead_rrState_dest (by rwa [h.cfg]) hs₂ (by rwa [h.cfg]), h.sreg]
  · rw [dataRead_rrState_of_ne had hne, dataRead_rrState_of_ne had (by rwa [h.cfg]), h.reg a ha]

/-- Completed states of format WI with the same operand agree where the states before them do. -/
theorem SameRegisters.wiState {alu : Word → BitVec 6 → Byte → Word × Byte} {p : RegIdx} {k : BitVec 6} {vw : Word}
    (h : SameRegisters s₁ s₂) (hc : s₁.cfg.Wf) (hs₁ : StoresWf s₁) (hs₂ : StoresWf s₂) (hp : IsPairLow p)
    (hcap : p.toNat + 1 < s₁.cfg.dataCapacity) : SameRegisters (wiState alu p k vw s₁) (wiState alu p k vw s₂) := by
  have hc₂ : s₂.cfg.Wf := by rwa [h.cfg]
  have hcap₂ : p.toNat + 1 < s₂.cfg.dataCapacity := by rwa [h.cfg]
  refine ⟨by simpa using h.cfg, by simp [h.pc], by simp [h.sreg], fun a ha => ?_⟩
  have hne : a ≠ s₁.cfg.sregAddr := by omega
  by_cases hlow : a = p.toNat
  · rw [hlow, dataRead_wiState_low hc hs₁ hp hcap, dataRead_wiState_low hc₂ hs₂ hp hcap₂, h.sreg]
  · by_cases hhigh : a = p.toNat + 1
    · rw [hhigh, dataRead_wiState_high hc hs₁ hp hcap, dataRead_wiState_high hc₂ hs₂ hp hcap₂, h.sreg]
    · rw [dataRead_wiState_of_ne hlow hhigh hne, dataRead_wiState_of_ne hlow hhigh (by rwa [h.cfg]), h.reg a ha]

/-- An instruction acts on registers, SREG and PC by them alone. -/
theorem SameRegisters.exec (h : SameRegisters s₁ s₂) (hc : s₁.cfg.Wf) (hs₁ : StoresWf s₁) (hs₂ : StoresWf s₂) (hi : i.Wf)
    (hexec : exec i s₁ = .next t₁) : ∃ t₂, Machine.exec i s₂ = .next t₂ ∧ SameRegisters t₁ t₂ := by
  have hreg := operandAddresses_lt hi
  obtain ⟨p, k, lo, hi', rfl, hl, hh, rfl⟩ | ⟨d, r, vd, vr, hrr, hd, hr, rfl⟩ := exec_next hexec
  · have hp32 : p.toNat + 1 < 32 := hreg _ (by simp [operandAddresses])
    exact ⟨_, execWI_completes ((h.reg _ p.isLt).trans hl) ((h.reg _ hp32).trans hh),
      h.wiState hc hs₁ hs₂ hi (dataRead_ok hh).1⟩
  · exact ⟨_, (exec_rr hrr).trans (execRR_completes ((h.reg _ d.isLt).trans hd) ((h.reg _ r.isLt).trans hr)),
      h.rrState hc hs₁ hs₂ (dataRead_ok hd).1⟩

/-- A completed step is the same in a state that agrees on the registers and on the word at the PC. -/
theorem SameRegisters.step_next (h : SameRegisters s₁ s₂) (hc : s₁.cfg.Wf) (hs₁ : StoresWf s₁) (hs₂ : StoresWf s₂)
    (hp : s₂.phase = s₁.phase) (hw : progRead s₂ s₂.pc.toNat = progRead s₁ s₁.pc.toNat) (hstep : step s₁ = .next t₁) :
    ∃ t₂, step s₂ = .next t₂ ∧ SameRegisters t₁ t₂ := by
  obtain ⟨hp₁, hlt, i, u₁, hd, hexec, rfl⟩ := Machine.step_next hstep
  have hw₁ := progRead_of_lt hlt
  have hfetched : SameRegisters { s₁ with ir := cell s₁.prog s₁.pc.toNat, phase := .executing }
      { s₂ with ir := cell s₁.prog s₁.pc.toNat, phase := .executing } := ⟨h.cfg, h.pc, h.sreg, h.reg⟩
  obtain ⟨u₂, hexec₂, hu⟩ := hfetched.exec hc hs₁ hs₂ (decode_wf hd) hexec
  refine ⟨{ u₂ with phase := .idle }, ?_, ⟨hu.cfg, hu.pc, hu.sreg, hu.reg⟩⟩
  rw [step_of_decode (hp.trans hp₁) (hw.trans hw₁) (by rwa [h.cfg]), hexec₂, returnToIdle]

/-- A failed step is the same in a state that agrees on the registers and on the word at the PC. -/
theorem SameRegisters.step_fault (h : SameRegisters s₁ s₂) (hp : s₂.phase = s₁.phase)
    (hw : progRead s₂ s₂.pc.toNat = progRead s₁ s₁.pc.toNat) (hstep : step s₁ = .fault f) : step s₂ = .fault f := by
  have hp₁ := phase_of_step_fault hstep
  rw [step_fault_iff (hp.trans hp₁), hw, h.cfg, h.pc]
  exact (step_fault_iff hp₁).1 hstep

/-- A failed step leaves the registers, SREG and the PC. -/
theorem SameRegisters.takeFault (hp₁ : s₁.phase = .idle) (hp₂ : s₂.phase = .idle) (h : SameRegisters s₁ s₂) :
    SameRegisters (takeFault s₁) (takeFault s₂) := by
  rw [takeFault_eq_with_ir hp₁, takeFault_eq_with_ir hp₂]
  exact ⟨h.cfg, h.pc, h.sreg, h.reg⟩

/-- Settles O42, by both endings of a step. -/
theorem stepDependsOnPcWordFlagsAndRegisters : Obligations.StepDependsOnPcWordFlagsAndRegisters := by
  intro s₁ s₂ t₁ res hc hs₁ hs₂ hcfg hp hpc hsreg hw hreg h
  have hsame : SameRegisters s₁ s₂ := ⟨hcfg, hpc, hsreg, hreg⟩
  obtain ⟨hp₁, ⟨hstep, rfl⟩ | ⟨f, hstep, rfl, rfl⟩⟩ := stepTransaction_ok h
  · obtain ⟨t₂, hstep₂, ht⟩ := hsame.step_next hc hs₁ hs₂ hp hw hstep
    exact ⟨t₂, stepTransaction_of_next hstep₂, ht.pc, ht.sreg, ht.reg⟩
  · have ht := hsame.takeFault hp₁ (hp.trans hp₁)
    exact ⟨_, stepTransaction_of_fault (hsame.step_fault hp hw hstep), ht.pc, ht.sreg, ht.reg⟩

end Sys2Proof.Machine
end

section
/-! The stores, construction and the loads (20_memory.md, 70_reset_and_hazards.md sections 1 and 2). -/

namespace Sys2Proof.Machine

/-! ### The bounded store and the data write -/

section BoundedStore
variable {w capacity a : Nat} {m : Memory w} {v : BitVec w}

theorem boundedRead_of_lt (h : a < capacity) : boundedRead capacity m a = .ok (cell m a) := if_pos h

theorem boundedRead_of_ge (h : capacity ≤ a) : boundedRead capacity m a = .error .outOfBounds := if_neg (Nat.not_lt.2 h)

theorem boundedWrite_of_lt (h : a < capacity) : boundedWrite capacity m a v = .ok (setCell m a v) := if_pos h

theorem boundedWrite_of_ge (h : capacity ≤ a) : boundedWrite capacity m a v = .error .outOfBounds :=
  if_neg (Nat.not_lt.2 h)

end BoundedStore

/-- Settles O43: the cell lemmas of the store, on either side of the capacity. -/
theorem boundedWriteReplacesOneCell : Obligations.BoundedWriteReplacesOneCell := by
  intro w capacity a m v hm hin
  refine ⟨fun h => ⟨boundedWrite_of_ge h, boundedRead_of_ge h⟩, fun h => ?_⟩
  refine ⟨_, boundedWrite_of_lt h, ?_, fun b hb => ?_, setCell_wf hm a v, setCell_within hin h v⟩
  · rw [boundedRead_of_lt h, cell_setCell_same hm]
  · rw [boundedRead, boundedRead, cell_setCell_of_ne hb]

variable {s t : State}

/-- A data byte just written is read back, at SREG's place too (R20). -/
theorem dataRead_putData_same (hs : StoresWf s) {a : Nat} (ha : a < s.cfg.dataCapacity) (v : Byte) :
    dataRead (putData s a v) a = .ok v := by
  obtain ⟨⟨hdata, -, -⟩, -, -⟩ := hs
  rw [dataRead_of_lt (by simpa using ha), putData_cfg]
  by_cases hsreg : a = s.cfg.sregAddr
  · rw [if_pos hsreg, putData_sreg_of_eq _ _ _ hsreg]
  · rw [if_neg hsreg, putData_data_of_ne _ _ _ hsreg, cell_setCell_same hdata]

/-- A data write changes no other data byte: SREG only where the write is at its place. -/
theorem dataRead_putData_of_ne {a b : Nat} (hb : b ≠ a) (v : Byte) : dataRead (putData s a v) b = dataRead s b := by
  refine dataRead_congr (putData_cfg ..) (cell_putData_of_ne hb) ?_
  by_cases hsreg : a = s.cfg.sregAddr
  · exact .inr (hsreg ▸ hb)
  · exact .inl (putData_sreg_of_ne _ _ _ hsreg)

/-- A data write that is answered put its byte. -/
theorem dataWrite_ok {a : Nat} {v : Byte} (h : dataWrite s a v = .ok t) : t = putData s a v := by
  unfold dataWrite at h
  split at h
  · exact (Except.ok.inj h).symm
  · cases h

/-- Settles O44: the data write inside the store is `putData`. -/
theorem dataWriteIsReadBack : Obligations.DataWriteIsReadBack := by
  refine fun s a v hs => ⟨fun h => ?_, fun h => ⟨if_neg (Nat.not_lt.2 h), dataRead_of_ge h⟩⟩
  exact ⟨_, if_pos h, dataRead_putData_same hs h v, fun b hb => dataRead_putData_of_ne hb v, putData_storesWf hs h v,
    putData_sreg_of_eq s a v, putData_sreg_of_ne s a v, putData_cfg .., putData_prog .., putData_eeprom .., putData_pc ..,
    putData_ir .., putData_phase ..⟩

/-! ### The loads -/

theorem loadProgram_of_le {bytes : List Byte} (h : bytes.length ≤ 2 * s.cfg.progCapacity) :
    loadProgram s bytes = some { s with prog := imageCells 0 bytes } := if_neg (Nat.not_lt.2 h)

theorem loadEeprom_of_le {bytes : List Byte} (h : bytes.length ≤ s.cfg.eepromCapacity) :
    loadEeprom s bytes = some { s with eeprom := byteCells 0 bytes } := if_neg (Nat.not_lt.2 h)

/-- A program load that is answered replaced the program store alone. -/
theorem loadProgram_some {bytes : List Byte} (h : loadProgram s bytes = some t) :
    t = { s with prog := imageCells 0 bytes } := by
  unfold loadProgram at h
  split at h
  · cases h
  · exact (Option.some.inj h).symm

/-- An EEPROM load that is answered replaced the EEPROM alone. -/
theorem loadEeprom_some {bytes : List Byte} (h : loadEeprom s bytes = some t) :
    t = { s with eeprom := byteCells 0 bytes } := by
  unfold loadEeprom at h
  split at h
  · cases h
  · exact (Option.some.inj h).symm

/-- Settles O48: the image's words inside the capacity. -/
theorem loadProgramFillsTheProgramStore : Obligations.LoadProgramFillsTheProgramStore := by
  refine fun s bytes => ⟨fun h => if_pos h, fun h => ⟨_, loadProgram_of_le h, fun i hi => ?_, rfl⟩⟩
  have hword := cell_imageCells 0 bytes i
  rw [Nat.zero_add] at hword
  exact (progRead_of_lt (s := { s with prog := imageCells 0 bytes }) hi).trans (congrArg _ hword)

/-- Settles O49: the image's bytes inside the capacity. -/
theorem loadEepromFillsTheEeprom : Obligations.LoadEepromFillsTheEeprom := by
  refine fun s bytes => ⟨fun h => if_pos h, fun h => ⟨_, loadEeprom_of_le h, fun i hi => ?_, rfl⟩⟩
  have hbyte := cell_byteCells 0 bytes i
  rw [Nat.zero_add] at hbyte
  exact (boundedRead_of_lt hi).trans (congrArg _ hbyte)

/-- Settles O45: each write leaves the two other stores, and SREG and the configuration for the loads. -/
theorem storesAreIsolated : Obligations.StoresAreIsolated := by
  refine fun s t => ⟨fun a v h b => ?_, fun bytes h b => ?_, fun bytes h b => ?_⟩
  · rw [dataWrite_ok h, progRead, progRead, eepromRead, eepromRead, putData_cfg, putData_prog, putData_eeprom]
    exact ⟨rfl, rfl⟩
  · rw [loadProgram_some h]
    exact ⟨rfl, rfl⟩
  · rw [loadEeprom_some h]
    exact ⟨rfl, rfl⟩

/-! ### Construction -/

/-- Every data byte of a new core reads 0, SREG's place included. -/
theorem dataRead_new {c : Config} {a : Nat} (ha : a < c.dataCapacity) : dataRead (State.new c) a = .ok 0 := by
  rw [dataRead_of_lt ha]
  exact congrArg _ (ite_self _)

/-- A core constructed with legal parameters is legal: its stores list no cell. -/
theorem new_wf {c : Config} (hc : c.Wf) : (State.new c).Wf := by
  refine ⟨hc, ⟨new_stores_wf c, ?_, ?_⟩, Nat.zero_le _, rfl⟩
  · simp [Memory.Within]
  · simp

/-- Settles O46: no cell of a new core is listed, so each reads 0. -/
theorem constructionLeavesZeros : Obligations.ConstructionLeavesZeros := by
  refine ⟨fun c => ⟨fun a ha => dataRead_new ha, fun a ha => progRead_of_lt ha, fun a ha => boundedRead_of_lt ha, ?_⟩, ?_⟩
  · exact ⟨rfl, rfl, rfl, rfl, rfl⟩
  · exact ⟨rfl, rfl, rfl⟩

/-- Settles O35: the reset state is the new core of the default parameters, which are legal. -/
theorem newStateIsLegal : Obligations.NewStateIsLegal := ⟨new_wf (by decide), fun _ => new_wf⟩

/-- The word 0x0000 is in no row of the decode table whose opcodes are all nonzero. -/
theorem decode_zero {c : Config} (h : c.opcAdd ≠ 0 ∧ c.opcAdc ≠ 0 ∧ c.opcAnd ≠ 0 ∧ c.opcAdiw ≠ 0) :
    decode c 0 = .error .unknownOpcode := by
  have hpos : ∀ {n : Nat} {o : BitVec n}, o ≠ 0 → 0 ≠ o.toNat := fun ho h0 => ho (BitVec.eq_of_toNat_eq h0.symm)
  obtain ⟨hadd, hadc, hand, hadiw⟩ := h
  exact (decode_unknown_iff c 0).2 ⟨hpos hadiw, hpos hadd, hpos hadc, hpos hand⟩

/-- Settles O47: the first step fetches 0x0000, or nothing at all. -/
theorem unloadedCoreFaultsAtOnce : Obligations.UnloadedCoreFaultsAtOnce := by
  have hzero : ∀ c : Config, c.opcAdd ≠ 0 ∧ c.opcAdc ≠ 0 ∧ c.opcAnd ≠ 0 ∧ c.opcAdiw ≠ 0 → 0 < c.progCapacity →
      stepTransaction (State.new c) = .ok (State.new c, .fault .unknownOpcode) := fun c hc hcap =>
    unknownWordEndsTheStep (State.new c) 0 rfl (progRead_of_lt hcap) (decode_zero hc)
  exact ⟨hzero, fun c hc => stepTransaction_of_pc_ge rfl hc.le, hzero Config.default (by decide) (by decide)⟩

end Sys2Proof.Machine
end

section
/-! The host's transactions (R129): what an answered one can do to the session, and the invariant every one keeps. -/

namespace Sys2Proof.Machine

open Sys2Proof.Statements

variable {h h' : Session} {q : Request} {r : Response}

/-! ### Everything a transaction can do -/

theorem transact_loadProgram (hp : h.core.phase = .idle) (bytes : List Byte) :
    transact h (.loadProgram bytes) = loadTransition h (loadProgram h.core bytes) := by simp only [transact, hp]

theorem transact_loadEeprom (hp : h.core.phase = .idle) (bytes : List Byte) :
    transact h (.loadEeprom bytes) = loadTransition h (loadEeprom h.core bytes) := by simp only [transact, hp]

theorem transact_step (hp : h.core.phase = .idle) : transact h .step = stepTransition h := by simp only [transact, hp]

/-- An answered load came before the first step, and left the session or put the loaded core in it. -/
theorem loadTransition_ok {loaded : Option State} (ht : loadTransition h loaded = .ok (h', r)) :
    h.stepped = false ∧ (h' = h ∨ ∃ t, loaded = some t ∧ h' = { h with core := t }) := by
  unfold loadTransition at ht
  split at ht
  · cases ht
  · rename_i hstepped
    refine ⟨by simpa using hstepped, ?_⟩
    split at ht
    · cases ht; exact .inr ⟨_, rfl, rfl⟩
    · cases ht; exact .inl rfl

/-- A load after a requested step is refused (R127). -/
theorem loadTransition_of_stepped (hs : h.stepped = true) (loaded : Option State) :
    loadTransition h loaded = .error .loadAfterStep := if_pos hs

/-- A load before the first step is answered. -/
theorem loadTransition_answers (hs : h.stepped = false) (loaded : Option State) :
    ∃ h' r, loadTransition h loaded = .ok (h', r) := by
  cases loaded <;> simp [loadTransition, hs]

/-- An answered step is the core's step transaction, and it is remembered (R127). -/
theorem stepTransition_ok (ht : stepTransition h = .ok (h', r)) :
    ∃ res, stepTransaction h.core = .ok (h'.core, res) ∧ h'.stepped = true := by
  unfold stepTransition at ht
  split at ht
  · cases ht; exact ⟨_, by assumption, rfl⟩
  · cases ht

/-- A transaction is answered in Idle only. -/
theorem transact_ok_phase (ht : transact h q = .ok (h', r)) : h.core.phase = .idle := by
  unfold transact at ht
  split at ht
  · cases ht
  · assumption

/-- Everything an answered transaction can do to the session: nothing, a load before the first step, or a step. -/
theorem transact_ok (ht : transact h q = .ok (h', r)) :
    h' = h ∨
    (h.stepped = false ∧ ∃ bytes t, (loadProgram h.core bytes = some t ∨ loadEeprom h.core bytes = some t) ∧
      h' = { h with core := t }) ∨
    ∃ res, stepTransaction h.core = .ok (h'.core, res) ∧ h'.stepped = true := by
  have hp := transact_ok_phase ht
  by_cases hhook : q ≠ .step ∧ ∀ bytes, q ≠ .loadProgram bytes ∧ q ≠ .loadEeprom bytes
  · exact .inl (transact_hook hp hhook.1 hhook.2 ht).1
  · cases q with
    | loadProgram bytes =>
      rw [transact_loadProgram hp] at ht
      obtain ⟨hs, rfl | ⟨t, hl, rfl⟩⟩ := loadTransition_ok ht
      · exact .inl rfl
      · exact .inr (.inl ⟨hs, bytes, t, .inl hl, rfl⟩)
    | loadEeprom bytes =>
      rw [transact_loadEeprom hp] at ht
      obtain ⟨hs, rfl | ⟨t, hl, rfl⟩⟩ := loadTransition_ok ht
      · exact .inl rfl
      · exact .inr (.inl ⟨hs, bytes, t, .inr hl, rfl⟩)
    | step =>
      rw [transact_step hp] at ht
      exact .inr (.inr (stepTransition_ok ht))
    | peekRegister _ | peekData _ | peekEeprom _ | peekFlags | programCounter => exact absurd (by simp) hhook

/-! ### The invariant -/

theorem quietSession_new {c : Config} (hc : c.Wf) : QuietSession (Session.new c) := by
  have hzero : ∀ b, (State.new c).sreg.getLsbD b = false := by simp
  have hsign : (State.new c).sreg.getLsbD 4 = ((State.new c).sreg.getLsbD 2 ^^ (State.new c).sreg.getLsbD 3) := by
    simp only [hzero, Bool.xor_false]
  exact ⟨new_wf hc, hzero 6, hzero 7, hsign, fun _ _ ha _ => dataRead_new ha⟩

/-- A load keeps a session quiet: it replaces one store by a canonical image. -/
theorem quietSession_load (hq : QuietSession h) {bytes : List Byte} {t : State}
    (hl : loadProgram h.core bytes = some t ∨ loadEeprom h.core bytes = some t) :
    QuietSession { h with core := t } := by
  obtain ⟨⟨hc, hs, hpc, hp⟩, hT, hI, hS, hcells⟩ := hq
  obtain hl | hl := hl
  · have hstores := loadProgram_storesWf hs hl
    obtain rfl := loadProgram_some hl
    exact ⟨⟨hc, hstores, hpc, hp⟩, hT, hI, hS, hcells⟩
  · have hstores := loadEeprom_storesWf hs hl
    obtain rfl := loadEeprom_some hl
    exact ⟨⟨hc, hstores, hpc, hp⟩, hT, hI, hS, hcells⟩

/-- A step keeps a session quiet: completed, it stays legal, keeps T and I, computes S and reaches registers only; failed,
it changes the IR at most. -/
theorem quietSession_step (hq : QuietSession h) {res : StepResult} (hstep : stepTransaction h.core = .ok (h'.core, res)) :
    QuietSession h' := by
  obtain ⟨hwf, hT, hI, hS, hcells⟩ := hq
  obtain ⟨hp, ⟨hnext, -⟩ | ⟨f, -, -, hfault⟩⟩ := stepTransaction_ok hstep
  · obtain ⟨hkT, hkI⟩ := step_next_transfer_interrupt hnext
    obtain ⟨hcfg, -⟩ := step_next_fields hnext
    refine ⟨stepKeepsTheStateLegal _ _ hwf hnext, hkT.trans hT, hkI.trans hI, step_next_sign hnext, fun a ha hcap hs => ?_⟩
    rw [hcfg] at hcap hs
    exact (step_next_dataRead hnext ha hs).trans (hcells a ha hcap hs)
  · unfold QuietSession
    rw [hfault, takeFault_eq_with_ir hp]
    exact ⟨hwf, hT, hI, hS, hcells⟩

/-- Settles O53, by what an answered transaction can do. -/
theorem transactionsKeepASessionQuiet : Obligations.TransactionsKeepASessionQuiet := by
  refine ⟨fun c => quietSession_new, fun h h' q r hq ht => ?_⟩
  obtain rfl | ⟨-, bytes, t, hl, rfl⟩ | ⟨res, hstep, -⟩ := transact_ok ht
  · exact hq
  · exact quietSession_load hq hl
  · exact quietSession_step hq hstep

/-- Settles O40: the invariant along the transactions that reach a session. -/
theorem reachableSessionsAreLegal : Obligations.ReachableSessionsAreLegal := by
  intro h hr
  induction hr with
  | new c hc => exact quietSession_new hc
  | transact h h' q r _ ht ih => exact transactionsKeepASessionQuiet.2 h h' q r ih ht

/-! ### Loads only before the first step -/

/-- Once a step has been requested, it stays so. -/
theorem transact_keeps_stepped (hs : h.stepped = true) (ht : transact h q = .ok (h', r)) : h'.stepped = true := by
  obtain rfl | ⟨hs', -⟩ | ⟨-, -, hs'⟩ := transact_ok ht
  · exact hs
  · rw [hs] at hs'; cases hs'
  · exact hs'

theorem Later.stepped {h₁ h₂ : Session} (hl : Later h₁ h₂) (hs : h₁.stepped = true) : h₂.stepped = true := by
  induction hl with
  | refl => exact hs
  | transact _ _ _ _ _ ht ih => exact transact_keeps_stepped ih ht

/-- An answered step request is remembered. -/
theorem stepped_of_transact_step (ht : transact h .step = .ok (h', r)) : h'.stepped = true := by
  rw [transact_step (transact_ok_phase ht)] at ht
  obtain ⟨-, -, hs⟩ := stepTransition_ok ht
  exact hs

/-- Settles O50: a requested step is remembered through every later transaction. -/
theorem loadsOnlyBeforeTheFirstStep : Obligations.LoadsOnlyBeforeTheFirstStep := by
  refine ⟨fun h h₁ h₂ r ht hl hp bytes => ?_, fun h hs hp bytes => ?_⟩
  · have hs := hl.stepped (stepped_of_transact_step ht)
    rw [transact_loadProgram hp, transact_loadEeprom hp]
    exact ⟨loadTransition_of_stepped hs _, loadTransition_of_stepped hs _⟩
  · rw [transact_loadProgram hp, transact_loadEeprom hp]
    obtain ⟨h₁, r₁, ht₁⟩ := loadTransition_answers hs (loadProgram h.core bytes)
    obtain ⟨h₂, r₂, ht₂⟩ := loadTransition_answers hs (loadEeprom h.core bytes)
    exact ⟨h₁, h₂, r₁, r₂, ht₁, ht₂⟩

/-- Settles O52: the hooks read through the bounded accesses. -/
theorem hooksOutOfRangeAnswerOutOfBounds : Obligations.HooksOutOfRangeAnswerOutOfBounds := by
  refine fun h a hp => ⟨fun ha => ?_, fun ha => ?_, fun ha => ?_⟩
  · rw [transact_peekRegister hp, peekRegister]
    split
    · rw [dataRead_of_ge (by omega), byteResponse]
    · rw [byteResponse]
  · rw [transact_peekData hp, peekData, dataRead_of_ge ha, byteResponse]
  · rw [transact_peekEeprom hp, peekEeprom, eepromRead, boundedRead_of_ge ha, byteResponse]

end Sys2Proof.Machine
end

section
/-! The laws of the three arithmetic instructions (41_add.md section 4, 42_adiw.md): the flag formulas as facts about the exact
sum of the operands. -/

namespace Sys2Proof.Machine

open Sys2Proof.Statements

/-! ### Bits and signs as numbers -/

theorem getLsbD_three8 (x : Byte) : x.getLsbD 3 = decide (8 ≤ x.toNat % 16) := by revert x; decide

theorem getLsbD_seven8 (x : Byte) : x.getLsbD 7 = decide (128 ≤ x.toNat) := by revert x; decide

theorem getLsbD_fifteen16 (x : Word) : x.getLsbD 15 = decide (32768 ≤ x.toNat) := by
  rw [← BitVec.msb_eq_getLsbD_last (x := x)]
  exact BitVec.msb_eq_decide x

theorem msb8 (x : Byte) : x.msb = decide (128 ≤ x.toNat) := BitVec.msb_eq_decide x

theorem toInt8 (x : Byte) : x.toInt = if x.toNat < 128 then (x.toNat : Int) else x.toNat - 256 := by
  rw [BitVec.toInt_eq_toNat_cond]
  split <;> split <;> omega

theorem toInt16 (x : Word) : x.toInt = if x.toNat < 32768 then (x.toNat : Int) else x.toNat - 65536 := by
  rw [BitVec.toInt_eq_toNat_cond]
  split <;> split <;> omega

/-- The 16-bit value of two bytes (R13). -/
theorem append_toNat (hi lo : Byte) : (hi ++ lo).toNat = 256 * hi.toNat + lo.toNat := by
  rw [BitVec.toNat_append, ← Nat.shiftLeft_add_eq_or_of_lt lo.isLt, Nat.shiftLeft_eq]
  omega

/-- The signed 16-bit value of two bytes: the sign is the high byte's. -/
theorem append_toInt (hi lo : Byte) : (hi ++ lo).toInt = 256 * hi.toInt + lo.toNat := by
  have := hi.isLt
  have := lo.isLt
  rw [toInt16, toInt8, append_toNat]
  split <;> split <;> omega

theorem append_msb (hi lo : Byte) : (hi ++ lo).msb = hi.msb := by
  have := lo.isLt
  rw [BitVec.msb_eq_decide, msb8, append_toNat]
  exact decide_eq_decide.2 (by omega)

theorem extractLow_toNat (x : Word) : (x.extractLsb' 0 8).toNat = x.toNat % 256 := by
  rw [BitVec.extractLsb'_toNat, Nat.shiftRight_zero]

theorem extractHigh_toNat (x : Word) : (x.extractLsb' 8 8).toNat = x.toNat / 256 % 256 := by
  rw [BitVec.extractLsb'_toNat, Nat.shiftRight_eq_div_pow]

/-- A word is its two bytes. -/
theorem extractLsb'_append_extractLsb' (x : Word) : x.extractLsb' 8 8 ++ x.extractLsb' 0 8 = x := by
  apply BitVec.eq_of_toNat_eq
  have := x.isLt
  rw [append_toNat, extractHigh_toNat, extractLow_toNat]
  omega

/-! ### The 8-bit additions -/

/-- The result of an 8-bit addition and the status byte after it as facts about the exact sum, unsigned and signed. -/
structure SumFacts (vd vr : Byte) (cin : Nat) (res new : Byte) : Prop where
  result : res.toNat = (vd.toNat + vr.toNat + cin) % 256
  carry : new.getLsbD 0 = true ↔ 256 ≤ vd.toNat + vr.toNat + cin
  halfCarry : new.getLsbD 5 = true ↔ 16 ≤ vd.toNat % 16 + vr.toNat % 16 + cin
  overflow : new.getLsbD 3 = true ↔ vd.toInt + vr.toInt + cin < -128 ∨ 127 < vd.toInt + vr.toInt + cin
  overflowSigns : new.getLsbD 3 = true ↔ vd.msb = vr.msb ∧ res.msb ≠ vd.msb
  sign : new.getLsbD 4 = true ↔ vd.toInt + vr.toInt + cin < 0
  negative : new.getLsbD 2 = true ↔ 128 ≤ res.toNat
  zero : new.getLsbD 1 = true ↔ res.toNat = 0

/-- The formulas of R85 say these facts. -/
theorem sumFacts_of_formulas {vd vr old res new : Byte} {cin : Bool} (h : Add8Formulas vd vr cin old res new) :
    SumFacts vd vr cin.toNat res new := by
  obtain ⟨hres, hC, hZ, hN, hV, hS, hH, -, -⟩ := h
  have := vd.isLt
  have := vr.isLt
  have := Bool.toNat_le cin
  rw [Bool.eq_iff_iff] at hC hZ hN hV hS hH
  simp only [getLsbD_three8 vd, getLsbD_three8 vr, getLsbD_three8 res, getLsbD_seven8, Bool.or_eq_true, Bool.and_eq_true,
    Bool.not_eq_true', decide_eq_true_eq, decide_eq_false_iff_not] at hC hZ hN hV hH
  have hoverflow : new.getLsbD 3 = true ↔ vd.toInt + vr.toInt + cin.toNat < -128 ∨ 127 < vd.toInt + vr.toInt + cin.toNat := by
    rw [hV, toInt8, toInt8]
    split <;> split <;> omega
  refine ⟨hres, ?_, ?_, hoverflow, ?_, ?_, hN, hZ⟩
  · rw [hC]
    omega
  · rw [hH]
    omega
  · rw [hV, msb8, msb8, msb8, ne_eq, decide_eq_decide, decide_eq_decide]
    omega
  · rw [hS, Bool.xor_iff_ne, ne_eq, Bool.eq_iff_iff, hN, hoverflow, toInt8, toInt8]
    split <;> split <;> omega

/-- The flag C of a sum as a number: what the sum carries out. -/
theorem SumFacts.carry_toNat {vd vr res new : Byte} {cin : Nat} (h : SumFacts vd vr cin res new) (hcin : cin ≤ 1) :
    (new.getLsbD 0).toNat = (vd.toNat + vr.toNat + cin) / 256 := by
  have := vd.isLt
  have := vr.isLt
  have hC := h.carry
  cases hbit : new.getLsbD 0 with
  | false =>
    simp only [hbit, Bool.false_eq_true, false_iff] at hC
    rw [Bool.toNat_false]
    omega
  | true =>
    simp only [hbit, true_iff] at hC
    rw [Bool.toNat_true]
    omega

/-- An 8-bit addition completes with the facts about the exact sum for its carry-in. -/
theorem exec_addition {s : State} {d r : RegIdx} {vd vr : Byte} {i : Instr} {cin : Nat} (hc : s.cfg.Wf) (hs : StoresWf s)
    (hd : dataRead s d.toNat = .ok vd) (hr : dataRead s r.toNat = .ok vr)
    (hi : i = .add d r ∧ cin = 0 ∨ i = .adc d r ∧ cin = (s.sreg.getLsbD 0).toNat) :
    ∃ t res, exec i s = .next t ∧ dataRead t d.toNat = .ok res ∧ SumFacts vd vr cin res t.sreg := by
  obtain ⟨rfl, rfl⟩ | ⟨rfl, rfl⟩ := hi
  · obtain ⟨t, res, ht, hres, hformulas, -⟩ := execRR_add8_completes (fun _ => false) hc hs hd hr
    exact ⟨t, res, ht, hres, sumFacts_of_formulas hformulas⟩
  · obtain ⟨t, res, ht, hres, hformulas, -⟩ := execRR_add8_completes (flag .c) hc hs hd hr
    exact ⟨t, res, ht, hres, sumFacts_of_formulas hformulas⟩

/-- The flag C as a number (R17). -/
theorem carry_toNat (sreg : Byte) : (sreg.getLsbD 0).toNat = sreg.toNat % 2 := by revert sreg; decide

/-- Settles O12: the formulas of the shared adder are the facts about the exact sum. -/
theorem addFlagsDescribeTheExactSum : Obligations.AddFlagsDescribeTheExactSum := by
  intro s d r vd vr i cin hc hs hd hr hi
  rw [← carry_toNat] at hi
  obtain ⟨t, res, ht, hread, hfacts⟩ := exec_addition hc hs hd hr hi
  exact ⟨t, res, ht, hread, hfacts.result, hfacts.carry, hfacts.halfCarry, hfacts.overflow, hfacts.overflowSigns,
    hfacts.sign, hfacts.negative, hfacts.zero⟩

/-- Settles O15: the carry of the low sum is the carry-in of the high one, whose flags are those of the 16-bit sum. -/
theorem addThenAdcAddsSixteenBits : Obligations.AddThenAdcAddsSixteenBits := by
  intro s dl rl dh rh al bl ah bh hc hs hdh hrh hal hbl hah hbh
  have hne : ∀ {x : RegIdx}, dl ≠ x → x.toNat ≠ dl.toNat := fun hx h => hx (BitVec.eq_of_toNat_eq h.symm)
  obtain ⟨t, lo, ht, hlo, low⟩ := exec_addition hc hs hal hbl (.inl ⟨rfl, rfl⟩)
  obtain ⟨hcfg, -⟩ := exec_next_fields ht
  have hct : t.cfg.Wf := by rwa [hcfg]
  have hframe : ∀ {x : RegIdx}, dl ≠ x → dataRead t x.toNat = dataRead s x.toNat := fun hx =>
    exec_rr_dataRead_of_ne (.inl rfl) ht (hne hx) (regIdx_ne_sregAddr hc _)
  obtain ⟨u, hi, hu, hhi, high⟩ := exec_addition hct (exec_storesWf hs ht) ((hframe hdh).trans hah)
    ((hframe hrh).trans hbh) (.inr ⟨rfl, rfl⟩)
  have hlo' : dataRead u dl.toNat = .ok lo :=
    (exec_rr_dataRead_of_ne (.inr (.inl rfl)) hu (hne hdh).symm (regIdx_ne_sregAddr hct _)).trans hlo
  rw [low.carry_toNat (Nat.zero_le 1)] at high
  have hloRes := low.result
  refine ⟨t, u, lo, hi, ht, hu, hlo', hhi, ?_, ?_, ?_, ?_, ?_⟩
  · rw [append_toNat, append_toNat, append_toNat, high.result]
    omega
  · rw [high.carry, append_toNat, append_toNat]
    omega
  · rw [append_msb, msb8, Bool.eq_iff_iff, high.negative, decide_eq_true_eq]
  · rw [high.overflow, append_toInt, append_toInt]
    omega
  · rw [high.sign, append_toInt, append_toInt]
    omega

/-- Settles O17: the two instructions are one format over adders that agree on a clear C. -/
theorem adcWithCarryClearIsAdd : Obligations.AdcWithCarryClearIsAdd := by
  intro s d r hC
  have hcin : flag .c s.sreg = false := hC
  simp only [exec, execAdc, execAdd, execRR, hcin]

/-! ### ADIW -/

/-- Settles O13: the formulas of the word adder as facts about the exact 16-bit sum. -/
theorem adiwFlagsDescribeTheExactSum : Obligations.AdiwFlagsDescribeTheExactSum := by
  intro s p k lo hi hc hs hp hlo hhi
  obtain ⟨t, res, ht, hlow, hhigh, ⟨hres, hC, -, hN, hV, hS, -⟩, -⟩ := execWI_addW_completes (k := k) hc hs hp hlo hhi
  have hk := k.isLt
  have hvd := (hi ++ lo).isLt
  rw [Bool.eq_iff_iff] at hC hN hV hS
  simp only [getLsbD_fifteen16, Bool.and_eq_true, Bool.not_eq_true', decide_eq_true_eq, decide_eq_false_iff_not] at hC hN hV
  have hoverflow : t.sreg.getLsbD 3 = true ↔ 32767 < (hi ++ lo).toInt + k.toNat := by
    rw [hV, toInt16]
    split <;> omega
  refine ⟨t, _, _, ht, hlow, hhigh, ?_, ?_, hoverflow, ?_, ?_, ?_⟩
  · rw [extractLsb'_append_extractLsb', hres]
  · rw [hC]
    omega
  · rw [hS, Bool.xor_iff_ne, ne_eq, Bool.eq_iff_iff, hN, hoverflow, toInt16]
    split <;> omega
  · rw [extractLow_toNat, hres, append_toNat]
    omega
  · rw [extractHigh_toNat, hres, append_toNat]
    omega

end Sys2Proof.Machine
end

section
/-! The laws of AND (43_and.md), and the two-register instructions whose source is their destination (the spellings LSL, ROL and
TST). -/

namespace Sys2Proof.Machine

open Sys2Proof.Statements

/-! ### A write that changes nothing -/

theorem consCell_of_ne {w : Nat} {a : Nat} {v : BitVec w} (m : Memory w) (hv : v ≠ 0#w) :
    consCell a v m = (a, v) :: m := if_neg hv

theorem consCell_zero {w : Nat} (a : Nat) (m : Memory w) : consCell a 0#w m = m := if_pos rfl

/-- Writing what a cell already holds leaves the canonical list as it is. -/
theorem setCell_cell {w : Nat} {m : Memory w} (hm : Memory.Wf m) (a : Nat) : setCell m a (cell m a) = m := by
  induction m with
  | nil => exact consCell_zero a []
  | cons c rest ih =>
    obtain hlt | rfl | hgt := Nat.lt_trichotomy a c.1
    · have hunlisted : cell (c :: rest) a = 0#w := cell_of_forall_ne fun e he => by
        obtain rfl | he := List.mem_cons.1 he
        · exact hlt.ne'
        · exact (hlt.trans (wf_head_lt hm e he)).ne'
      rw [hunlisted, setCell, if_pos hlt, consCell_zero]
    · have hne : c.2 ≠ 0#w := hm.2 c List.mem_cons_self
      rw [setCell, if_neg (Nat.lt_irrefl _), if_pos rfl, cell, if_pos rfl, consCell_of_ne rest hne]
    · rw [setCell, if_neg hgt.not_gt, if_neg hgt.ne', cell, if_neg hgt.ne, ih (wf_tail hm)]

/-- Writing back the byte a data address reads as changes nothing. -/
theorem putData_of_dataRead {s : State} {a : Nat} {v : Byte} (hs : StoresWf s) (h : dataRead s a = .ok v) :
    putData s a v = s := by
  obtain ⟨⟨hdata, -, -⟩, -, -⟩ := hs
  obtain ⟨-, rfl⟩ := dataRead_ok h
  by_cases hsreg : a = s.cfg.sregAddr
  · simp [putData, hsreg]
  · simp [putData, hsreg, setCell_cell hdata]

/-- An instruction that computes what its destination and SREG already hold advances the PC alone. -/
theorem rrState_of_unchanged {alu : Byte → Byte → Byte → Byte × Byte} {d : RegIdx} {vd vr : Byte} {s : State}
    (hs : StoresWf s) (hd : dataRead s d.toNat = .ok vd) (halu : alu vd vr s.sreg = (vd, s.sreg)) :
    rrState alu d vd vr s = { s with pc := s.pc + 1#16 } := by
  simp only [rrState, halu, putData_of_dataRead hs hd]

/-! ### The pure function of AND -/

theorem and8_comm (vd vr sreg : Byte) : and8 vd vr sreg = and8 vr vd sreg := by
  simp only [and8, BitVec.and_comm vd vr]

/-- AND of its own result, and with the status byte it left, changes neither. -/
theorem and8_again {vd vr x : Byte} (sreg : Byte) (hx : vd &&& vr &&& x = vd &&& vr) :
    and8 (vd &&& vr) x (and8 vd vr sreg).2 = and8 vd vr sreg := by
  simp only [and8, hx, flag_i_sregOf, flag_t_sregOf, flag_h_sregOf, flag_c_sregOf]

theorem and_toNat_le (x y : Byte) : (x &&& y).toNat ≤ x.toNat ∧ (x &&& y).toNat ≤ y.toNat := by
  rw [BitVec.toNat_and]
  exact ⟨Nat.and_le_left, Nat.and_le_right⟩

/-- Executed twice in a row AND leaves what it left the first time, but for the PC: the source is untouched, or is the
destination. -/
theorem execAnd_again {s : State} {d r : RegIdx} {vd vr : Byte} (hc : s.cfg.Wf) (hs : StoresWf s)
    (hd : dataRead s d.toNat = .ok vd) (hr : dataRead s r.toNat = .ok vr) :
    execAnd d r (rrState and8 d vd vr s) =
      .next { rrState and8 d vd vr s with pc := (rrState and8 d vd vr s).pc + 1#16 } := by
  have hcap := (dataRead_ok hd).1
  have hdest : dataRead (rrState and8 d vd vr s) d.toNat = .ok (vd &&& vr) := dataRead_rrState_dest hc hs hcap
  have hsource : ∃ x, dataRead (rrState and8 d vd vr s) r.toNat = .ok x ∧ vd &&& vr &&& x = vd &&& vr := by
    by_cases hrd : r.toNat = d.toNat
    · exact ⟨_, hrd ▸ hdest, BitVec.and_self⟩
    · refine ⟨vr, (dataRead_rrState_of_ne hrd (regIdx_ne_sregAddr hc r)).trans hr, ?_⟩
      rw [BitVec.and_assoc, BitVec.and_self]
  obtain ⟨x, hx, habsorb⟩ := hsource
  rw [← rrState_of_unchanged (alu := and8) (vr := x) (rrState_storesWf hs hcap) hdest (and8_again s.sreg habsorb)]
  exact execRR_completes hdest hx

/-! ### The statements -/

/-- Settles O14: the two orders compute the same pair of result and status byte. -/
theorem andIsBoundedCommutativeIdempotent : Obligations.AndIsBoundedCommutativeIdempotent := by
  intro s d r vd vr hc hs hd hr
  obtain ⟨hle, hle'⟩ := and_toNat_le vd vr
  obtain ⟨-, -, -, -, hV, hS, -⟩ := and8_formulas vd vr s.sreg
  have hcomm := and8_comm vr vd s.sreg
  refine ⟨_, _, vd &&& vr, execRR_completes hd hr, execRR_completes hr hd, dataRead_rrState_dest hc hs (dataRead_ok hd).1,
    ?_, ?_, hle, hle', hV, ?_, execAnd_again hc hs hd hr⟩
  · rw [dataRead_rrState_dest hc hs (dataRead_ok hr).1, hcomm]
    rfl
  · rw [rrState_sreg, rrState_sreg, hcomm]
  · rw [rrState_sreg, hS, hV, Bool.xor_false]

/-- With equal operands the carry out of a bit is that bit, for any result (R85). -/
theorem carry_of_same (a r : Bool) : (a && a || !r && (a || a)) = a := by cases a <;> cases r <;> rfl

/-- Settles O16: the formulas with both operands the old value. -/
theorem sameRegisterForms : Obligations.SameRegisterForms := by
  intro s d v hc hs hd
  refine ⟨?_, ?_, ?_⟩
  · obtain ⟨t, res, ht, hread, ⟨hres, hC, -, -, -, -, hH, -⟩, -⟩ := execRR_add8_completes (fun _ => false) hc hs hd hd
    refine ⟨t, res, ht, hread, ?_, hC.trans (carry_of_same ..), hH.trans (carry_of_same ..)⟩
    rw [hres, Bool.toNat_false, Nat.add_zero, Nat.two_mul]
  · obtain ⟨t, res, ht, hread, ⟨hres, hC, -, -, -, -, hH, -⟩, -⟩ := execRR_add8_completes (flag .c) hc hs hd hd
    refine ⟨t, res, ht, hread, ?_, hC.trans (carry_of_same ..), hH.trans (carry_of_same ..)⟩
    rw [hres, flag, flagBit, carry_toNat, Nat.two_mul]
  · obtain ⟨-, -, hZ, hN, hV, -⟩ := and8_formulas v v s.sreg
    have hself : (and8 v v s.sreg).1 = v := BitVec.and_self
    rw [hself] at hZ hN
    exact ⟨_, execRR_completes hd hd, (dataRead_rrState_dest hc hs (dataRead_ok hd).1).trans (congrArg _ hself), hZ, hN, hV⟩

end Sys2Proof.Machine
end
